-- ==== Sys2Proof/Word.lean ====
section
/-! DEFINITION. The word types of RAWDEC (R9): a bus word of 32 bits, a plane or channel sample of 16, a byte of 8, and a preview pixel, a triple of bytes. -/

namespace Sys2Proof

/-- One IN byte, or one component of a preview pixel (R9). -/
abbrev Byte := BitVec 8

/-- A plane sample or a channel sample (R9). -/
abbrev Sample := BitVec 16

/-- A bus word, a register or a command word (R9, R23, R100). -/
abbrev Word := BitVec 32

/-- A preview pixel: "RGB\[i\] is a triple (r, g, b) of 8-bit values" (R14, R50). -/
structure Pixel where
  r : Byte
  g : Byte
  b : Byte
deriving DecidableEq, Repr, Inhabited

/-- The channel names R, Gr (green on red rows), Gb (green on blue rows) and B (R17, R182). -/
inductive Role where
  | r | gr | gb | b
deriving DecidableEq, Repr

end Sys2Proof
end

