-- ==== Sys2Proof/Config.lean ====
section
/-! DEFINITION. What an implementation fixes (R8) and the values the spec leaves unspecified (R52): the parameters, and the opaque draws of memory contents. -/

namespace Sys2Proof

/-- The three parameters a model of RAWDEC takes as arguments (R8). They stand in every state, and no
step changes them (log 1). -/
structure Params where
  /-- MAX_W, the largest width DECODE accepts. -/
  maxW : Nat
  /-- MAX_H, the largest height DECODE accepts. -/
  maxH : Nat
  /-- IN_SIZE, the size of the IN memory in bytes. -/
  inSize : Nat
deriving DecidableEq, Repr

namespace Params

/-- NP, the number of PLANE elements (R50, R72). -/
def np (p : Params) : Nat := p.maxW * p.maxH

/-- NC, the number of elements of each channel memory and of RGB (R50, R72). -/
def nc (p : Params) : Nat := (p.maxW / 2) * (p.maxH / 2)

end Params

/-- DESIGN CHOICE (log 1, unsafe): the parameters of the machine that `State.reset` gives, those of
95_test_vectors.md section 0. The spec leaves them open; every statement ranges over all of them. -/
def Config.params : Params := { maxW := 64, maxH := 64, inSize := 4096 }

/-- The five memories of 16-bit samples (R50). -/
inductive SampleMem where
  | plane
  | ch (role : Role)
deriving DecidableEq, Repr

/-- Free value (log 3): the byte that draw `gen` puts at offset `idx` of IN. "Unspecified means a model takes any
value (a draw)" (R52). -/
opaque Config.freeByte (gen idx : Nat) : Byte

/-- Free value (log 3): the sample that draw `gen` puts at element `idx` of PLANE or of a channel memory (R52). -/
opaque Config.freeSample (m : SampleMem) (gen idx : Nat) : Sample

/-- Free value (log 3): the pixel that draw `gen` puts at element `idx` of RGB (R52). -/
opaque Config.freePixel (gen idx : Nat) : Pixel

end Sys2Proof
end

