-- ==== Sys2Proof/Syntax.lean ====
section
/-! DEFINITION. The commands of RAWDEC: one constructor for each row of spec/opcode_table.json (R101). -/

namespace Sys2Proof

/-- The five commands. None has an operand: each reads named registers when it runs (R20, R104). -/
inductive Instr where
  /-- Reports completion and does nothing else (R217). -/
  | nop
  /-- The bit unpacker: IN to PLANE (R150). -/
  | decode
  /-- The Bayer splitter: PLANE to the four channel memories (R180). -/
  | split
  /-- The RGB reconstructor: the channel memories to RGB (R195). -/
  | recon
  /-- DECODE, SPLIT and RECON in order (R218). -/
  | pipe
deriving DecidableEq, Repr

end Sys2Proof
end

