-- ==== Sys2Proof/WellFormed.lean ====
section
/-! DEFINITION. The well-formedness checks: the constraints on the parameters (R8) and on a command word (R100, R101). -/

namespace Sys2Proof

/-- A command has no operand that could be out of range (R20, R104), so every term of `Instr` is well-formed. -/
def Instr.wf : Instr → Bool
  | .nop | .decode | .split | .recon | .pipe => true

/-- A command word that selects an operation: RSV = 0 and OP in 0 .. 4 (R100, R101). -/
def wfCommandWord (c : Word) : Bool :=
  c.extractLsb' 4 28 == 0 && decide ((c.extractLsb' 0 4).toNat ≤ 4)

/-- The constraints on the parameters (R8). -/
structure Params.WellFormed (p : Params) : Prop where
  maxW_pos : 1 ≤ p.maxW
  maxW_le : p.maxW ≤ 65535
  maxH_pos : 1 ≤ p.maxH
  maxH_le : p.maxH ≤ 65535
  inSize_min : 4 ≤ p.inSize
  inSize_max : p.inSize ≤ 0x10000000
  inSize_words : p.inSize % 4 = 0
  area_le : p.maxW * p.maxH ≤ 0x08000000

/-- The same constraints as a check that evaluates. -/
def Params.wf (p : Params) : Bool :=
  decide (1 ≤ p.maxW) && decide (p.maxW ≤ 65535) && decide (1 ≤ p.maxH) && decide (p.maxH ≤ 65535)
    && decide (4 ≤ p.inSize) && decide (p.inSize ≤ 0x10000000) && p.inSize % 4 == 0
    && decide (p.maxW * p.maxH ≤ 0x08000000)

end Sys2Proof
end

