-- ==== Sys2Proof/Decode.lean ====
section
/-! DEFINITION. The decoder of command words, total and rejecting by name (R100 to R103, R116), and the encoder written from the same table (R101). -/

namespace Sys2Proof

/-- Why a command word selects no operation. Either way it is accepted and completes with `IllegalCommand`
(R102, R103, R219). -/
inductive Reject where
  /-- RSV ≠ 0, whatever OP is (R102). -/
  | reservedBits
  /-- RSV = 0 and OP in 5 .. 15 (R103). -/
  | reservedOp
deriving DecidableEq, Repr

/-- The field OP, bits \[3:0\] of a command word (R100). -/
def fieldOp (c : Word) : BitVec 4 := c.extractLsb' 0 4

/-- The field RSV, bits \[31:4\] of a command word (R100). -/
def fieldRsv (c : Word) : BitVec 28 := c.extractLsb' 4 28

/-- The decoder (R116): RSV is looked at first, then OP. -/
def decodeWord (c : Word) : Except Reject Instr :=
  if fieldRsv c ≠ 0 then .error .reservedBits
  else if fieldOp c = 0 then .ok .nop
  else if fieldOp c = 1 then .ok .decode
  else if fieldOp c = 2 then .ok .split
  else if fieldOp c = 3 then .ok .recon
  else if fieldOp c = 4 then .ok .pipe
  else .error .reservedOp

/-- A word that decodes to no operation (R219). -/
def isIllegalWord (c : Word) : Bool :=
  match decodeWord c with
  | .ok _ => false
  | .error _ => true

/-- The OP code of each command (R101). -/
def opcodeOf : Instr → BitVec 4
  | .nop => 0
  | .decode => 1
  | .split => 2
  | .recon => 3
  | .pipe => 4

/-- The command word of each command: RSV = 0 above OP (R100, R101). -/
def encode (i : Instr) : Word := 0#28 ++ opcodeOf i

/-- The instruction read from a row of spec/opcode_table.json. A command is one 32-bit word (R100), so the word is the
row's number and there is no byte order to lay out: the host writes it whole to CMD (R30). More than 32 bits is no command. -/
def decodeTableWord (nbits w : Nat) : Option Instr :=
  if nbits ≤ 32 then
    match decodeWord (BitVec.ofNat 32 (w % 2 ^ nbits)) with
    | .ok i => some i
    | .error _ => none
  else none

end Sys2Proof
end

