-- ==== Sys2Proof/Machine/State.lean ====
section
/-! DEFINITION. The state of RAWDEC as plain data (R22): the stored registers, the pending command, the seven memories; beside them the
model's own fields. Reset values are those of R52. -/

namespace Sys2Proof.Machine

/-- One memory of the block (R50). `cells` lists the elements written since draw `gen`, by rising index; an element not listed
has no value of its own and reads as the free value that draw `gen` puts there (log 3). -/
structure Memory (α : Type) where
  gen : Nat
  cells : List (Nat × α)
deriving DecidableEq, Repr

/-- The canonical form: indexes strictly rising, so no index is listed twice. An unlisted element reads as no value of its own, so
no entry can equal it. -/
abbrev Memory.wf {α : Type} (m : Memory α) : Prop := m.cells.Pairwise (fun a b => a.1 < b.1)

/-- Every listed element exists in a memory of n elements (R50). -/
abbrev Memory.below {α : Type} (n : Nat) (m : Memory α) : Prop := ∀ c ∈ m.cells, c.1 < n

/-- A memory just drawn: nothing listed, every element unspecified (R52). -/
def Memory.fresh {α : Type} (gen : Nat) : Memory α := { gen := gen, cells := [] }

/-- RECON_CTRL.EDGE (R39, R199). Code 3 is not storable, so it has no constructor. -/
inductive Edge where
  | zero | crop | full
deriving DecidableEq, Repr

/-- The stored registers, one field per register field (R23 to R46). Reserved bits have no storage (R51), and the hardwired, action
and derived registers are views (R22). -/
structure Regs where
  /-- STATUS\[1\] (R27). -/
  done : Bool
  /-- STATUS\[2\] (R27). -/
  err : Bool
  /-- STATUS\[3\] (R27, R157). -/
  satf : Bool
  /-- STATUS\[4\] (R27, R48). -/
  planeV : Bool
  /-- STATUS\[5\] (R27, R48). -/
  chV : Bool
  /-- STATUS\[6\] (R27, R48, R49). -/
  rgbV : Bool
  /-- ERRCODE.CODE (R28). -/
  errcode : BitVec 4
  /-- IRQ_EN\[0\] (R29). -/
  doneIe : Bool
  /-- IRQ_EN\[1\] (R29). -/
  errIe : Bool
  /-- DESC_W.WIDTH (R31). -/
  width : BitVec 16
  /-- DESC_H.HEIGHT (R32). -/
  height : BitVec 16
  /-- DESC_FMT.ENC (R33, R106). -/
  enc : BitVec 3
  /-- DESC_FMT.BPP_OVR (R33, R110). -/
  bppOvr : BitVec 5
  /-- DESC_FMT.BAYER (R33, R107). -/
  bayer : BitVec 3
  /-- DESC_FMT.ENDIAN, true for big (R33, R108). -/
  bigEndian : Bool
  /-- DESC_HDR.HEADER (R34). -/
  header : Word
  /-- DESC_LPAD.LPAD (R35). -/
  lpad : BitVec 16
  /-- DESC_RPAD.RPAD (R36). -/
  rpad : BitVec 16
  /-- IN_LEN (R37). -/
  inLen : Word
  /-- GAIN_R.GAIN, U4.12 (R38, R113). -/
  gainR : BitVec 16
  /-- GAIN_G.GAIN, U4.12 (R38, R113). -/
  gainG : BitVec 16
  /-- GAIN_B.GAIN, U4.12 (R38, R113). -/
  gainB : BitVec 16
  /-- RECON_CTRL.RND (R39). -/
  rnd : Bool
  /-- RECON_CTRL.EDGE (R39). -/
  edge : Edge
  /-- PLANE_W (R44). -/
  planeW : BitVec 16
  /-- PLANE_H (R44). -/
  planeH : BitVec 16
  /-- CH_W (R45). -/
  chW : BitVec 16
  /-- CH_H (R45). -/
  chH : BitVec 16
  /-- RGB_W (R46). -/
  rgbW : BitVec 16
  /-- RGB_H (R46). -/
  rgbH : BitVec 16
deriving DecidableEq, Repr

/-- The reset value of every stored register (R52). -/
def Regs.reset : Regs where
  done := false
  err := false
  satf := false
  planeV := false
  chV := false
  rgbV := false
  errcode := 0
  doneIe := false
  errIe := false
  width := 0
  height := 0
  enc := 7
  bppOvr := 0
  bayer := 0
  bigEndian := false
  header := 0
  lpad := 0
  rpad := 0
  inLen := 0
  gainR := 0x1000
  gainG := 0x1000
  gainB := 0x1000
  rnd := true
  edge := .zero
  planeW := 0
  planeH := 0
  chW := 0
  chH := 0
  rgbW := 0
  rgbH := 0

/-- The size of a bus access: 1, 2 or 4 bytes (R70). -/
inductive AccessSize where
  | byte | half | word
deriving DecidableEq, Repr

/-- A host transaction (R70). -/
inductive Transaction where
  | read (addr : Word) (size : AccessSize)
  | write (addr : Word) (size : AccessSize) (wdata : Word)
deriving DecidableEq, Repr

/-- The response of the bus (R70). -/
inductive Response where
  | okay | slverr
deriving DecidableEq, Repr

/-- What the host sees of a transaction (R11, R70): a read answers data beside its response. -/
inductive Reply where
  | read (resp : Response) (rdata : Word)
  | write (resp : Response)
deriving DecidableEq, Repr

/-- What may happen next to the block: a host transaction, the engine's turn, or the hardware reset (R10, R265). A list of these
is one schedule of the agents (log 2). -/
inductive Input where
  | host (t : Transaction)
  | engine
  | hardReset
deriving DecidableEq, Repr

/-- The whole state: the spec's components (R22), then the model's own fields. -/
structure State where
  /-- MAX_W, MAX_H and IN_SIZE (R8): the model's arguments, written by no step (log 1). -/
  params : Params
  /-- The stored registers (R23). -/
  regs : Regs
  /-- The pending command word, if any (R47). -/
  pending : Option Word
  /-- IN (R50). -/
  inMem : Memory Byte
  /-- PLANE (R50). -/
  plane : Memory Sample
  /-- CH_R (R50). -/
  chR : Memory Sample
  /-- CH_GR (R50). -/
  chGr : Memory Sample
  /-- CH_GB (R50). -/
  chGb : Memory Sample
  /-- CH_B (R50). -/
  chB : Memory Sample
  /-- RGB (R50). -/
  rgb : Memory Pixel
  /-- The model's own: the number of the next draw of unspecified contents (log 3). -/
  draws : Nat
  /-- The model's own: what is still to happen, oldest first (log 2). -/
  inputs : List Input
  /-- The model's own: the bus answers given so far, newest first (log 2). -/
  replies : List Reply
deriving DecidableEq, Repr

/-- RAWDEC has no fault: a command error is a code in ERRCODE (R235, R236), and SLVERR is "the result of that bus step, never … a
fault of the block" (R239). So nobody raises one. -/
inductive Fault
deriving DecidableEq, Repr

/-- The one refusal is the host's own. -/
inductive Refusal where
  /-- An instruction that has no meaning yet, refused by name in `exec`. Safe. No arm raises it: every command has its meaning. -/
  | notModelled (mnemonic : String)
deriving DecidableEq, Repr

/-- The state after a hardware reset or power-on of a block with the parameters `p` (R52, R265, R267): no command pending, the
registers at their reset values, all seven memories unspecified, and nothing yet to happen. -/
def State.resetWith (p : Params) : State where
  params := p
  regs := Regs.reset
  pending := none
  inMem := Memory.fresh 0
  plane := Memory.fresh 0
  chR := Memory.fresh 0
  chGr := Memory.fresh 0
  chGb := Memory.fresh 0
  chB := Memory.fresh 0
  rgb := Memory.fresh 0
  draws := 1
  inputs := []
  replies := []

/-- The machine right after reset, with the parameters of log 1. -/
def State.reset : State := State.resetWith Config.params

end Sys2Proof.Machine
end

