-- ==== Sys2Proof/Machine/Operands.lean ====
section
/-! DEFINITION. What a command computes from its operands, as pure functions: the FormatDescriptor (R130 to R137), the unpackers and the
rescale (R151 to R156), the Bayer roles (R182), and the reconstruction's bias, pixel and boundary (R196 to R199). -/

namespace Sys2Proof.Machine

/-- The error kinds (R18, R235). Codes 7 .. 15 are never produced, so they have no constructor. -/
inductive Err where
  | invalidDimension
  | unsupportedEncoding
  | unsupportedBayerOrder
  | truncatedInput
  | illegalCommand
  | notReady
deriving DecidableEq, Repr

/-- The code of an error (R235). -/
def Err.code : Err → BitVec 4
  | .invalidDimension => 1
  | .unsupportedEncoding => 2
  | .unsupportedBayerOrder => 3
  | .truncatedInput => 4
  | .illegalCommand => 5
  | .notReady => 6

/-- The code a command completes with: 0 for no error (R235). -/
def codeOf : Option Err → BitVec 4
  | none => 0
  | some e => e.code

/-! ### The FormatDescriptor (40_descriptor.md) -/

/-- The packed layouts (R17, R131). -/
inductive Layout where
  | raw8 | raw10 | raw12 | raw16
deriving DecidableEq, Repr

/-- EffBpp() (R130). -/
def Regs.effBpp (g : Regs) : Nat :=
  if 0 < g.bppOvr.toNat then g.bppOvr.toNat
  else if g.enc = 0 then 8
  else if g.enc = 1 then 10
  else if g.enc = 2 then 12
  else if g.enc = 3 then 16
  else if g.enc = 4 then 14
  else 16

/-- Layout() (R131); `none` is the spec's 7. -/
def Regs.layout (g : Regs) : Option Layout :=
  if g.enc = 0 then some .raw8
  else if g.enc = 1 then some .raw10
  else if g.enc = 2 then some .raw12
  else if g.enc = 3 then some .raw16
  else if g.bppOvr = 8 then some .raw8
  else if g.bppOvr = 10 then some .raw10
  else if g.bppOvr = 12 then some .raw12
  else if g.bppOvr = 16 then some .raw16
  else none

/-- The code of a layout in DERIV (R40). -/
def layoutCode : Option Layout → BitVec 3
  | some .raw8 => 0
  | some .raw10 => 1
  | some .raw12 => 2
  | some .raw16 => 3
  | none => 7

/-- RowBytes(w, L) (R132). -/
def rowBytes (w : Nat) : Option Layout → Nat
  | some .raw8 => w
  | some .raw10 => (10 * w + 7) / 8
  | some .raw12 => (12 * w + 7) / 8
  | some .raw16 => 2 * w
  | none => 0

/-- Stride() (R133). -/
def Regs.stride (g : Regs) : Nat := rowBytes g.width.toNat g.layout + g.lpad.toNat + g.rpad.toNat

/-- ReqLen(), exact (R134). -/
def Regs.reqLen (g : Regs) : Nat := g.header.toNat + g.height.toNat * g.stride

/-- InvalidDim() (R135). -/
abbrev Regs.InvalidDim (p : Params) (g : Regs) : Prop :=
  g.width.toNat = 0 ∨ g.height.toNat = 0 ∨ p.maxW < g.width.toNat ∨ p.maxH < g.height.toNat

/-- UnsupEnc() (R136). -/
abbrev Regs.UnsupEnc (g : Regs) : Prop := 16 < g.bppOvr.toNat ∨ g.layout = none

/-- DescCheck(), with its priority (R137). -/
def descCheck (p : Params) (g : Regs) : Option Err :=
  if g.InvalidDim p then some .invalidDimension
  else if g.UnsupEnc then some .unsupportedEncoding
  else if g.inLen.toNat < g.reqLen then some .truncatedInput
  else none

/-! ### Unpacking and rescaling (41_unpack.md) -/

/-- RowBase(r) (R151). -/
def Regs.rowBase (g : Regs) (r : Nat) : Nat := g.header.toNat + r * g.stride + g.lpad.toNat

/-- Unpack_raw8 (R152). -/
def unpackRaw8 (byteAt : Nat → Byte) (base c : Nat) : Nat := (byteAt (base + c)).toNat

/-- Unpack_raw10, with the partial last group (R153). -/
def unpackRaw10 (byteAt : Nat → Byte) (base width c : Nat) : Nat :=
  let g := c / 4
  let j := c % 4
  let n := min 4 (width - 4 * g)
  let gb := base + 5 * g
  let hi := (byteAt (gb + j)).toNat
  let lo := ((byteAt (gb + n)).toNat >>> (2 * j)) &&& 3
  (hi <<< 2) ||| lo

/-- Unpack_raw12, with the partial last group (R154). -/
def unpackRaw12 (byteAt : Nat → Byte) (base width c : Nat) : Nat :=
  let g := c / 2
  let j := c % 2
  let n := min 2 (width - 2 * g)
  let gb := base + 3 * g
  let hi := (byteAt (gb + j)).toNat
  let lo := ((byteAt (gb + n)).toNat >>> (4 * j)) &&& 15
  (hi <<< 4) ||| lo

/-- Unpack_raw16, in the byte order of DESC_FMT.ENDIAN (R155). -/
def unpackRaw16 (byteAt : Nat → Byte) (bigEndian : Bool) (base c : Nat) : Nat :=
  let b0 := (byteAt (base + 2 * c)).toNat
  let b1 := (byteAt (base + 2 * c + 1)).toNat
  if bigEndian then (b0 <<< 8) ||| b1 else (b1 <<< 8) ||| b0

/-- Unpack_L(base, c): the raw sample of column c of a row (R150). -/
def unpack (L : Layout) (byteAt : Nat → Byte) (g : Regs) (base c : Nat) : Nat :=
  match L with
  | .raw8 => unpackRaw8 byteAt base c
  | .raw10 => unpackRaw10 byteAt base g.width.toNat c
  | .raw12 => unpackRaw12 byteAt base g.width.toNat c
  | .raw16 => unpackRaw16 byteAt g.bigEndian base c

/-- q of R156: raw * 65535 / (2^bpp - 1), rounded to nearest, in exact arithmetic. -/
def scaleQuotient (raw bpp : Nat) : Nat :=
  let M := 2 ^ bpp - 1
  (2 * raw * 65535 + M) / (2 * M)

/-- Scale(raw, bpp): the 16-bit sample, and whether it saturated (R156, R157). -/
def scale (raw bpp : Nat) : Sample × Bool :=
  let q := scaleQuotient raw bpp
  (BitVec.ofNat 16 (min q 65535), decide (65535 < q))

/-! ### Bayer orders (42_split.md) -/

/-- The four orders (R107). -/
inductive BayerOrder where
  | grbg | rggb | bggr | gbrg
deriving DecidableEq, Repr

/-- DESC_FMT.BAYER codes; 4 .. 7 are no order (R107). -/
def bayerOrderOf (code : BitVec 3) : Option BayerOrder :=
  if code = 0 then some .grbg
  else if code = 1 then some .rggb
  else if code = 2 then some .bggr
  else if code = 3 then some .gbrg
  else none

/-- Role(o, a, b): the channel that quadrant (a, b) becomes; a and b are the parities of row and column, true for odd (R181, R182). -/
def roleOf : BayerOrder → Bool → Bool → Role
  | .grbg, false, false => .gr
  | .grbg, false, true => .r
  | .grbg, true, false => .b
  | .grbg, true, true => .gb
  | .rggb, false, false => .r
  | .rggb, false, true => .gr
  | .rggb, true, false => .gb
  | .rggb, true, true => .b
  | .bggr, false, false => .b
  | .bggr, false, true => .gb
  | .bggr, true, false => .gr
  | .bggr, true, true => .r
  | .gbrg, false, false => .gb
  | .gbrg, false, true => .b
  | .gbrg, true, false => .r
  | .gbrg, true, true => .gr

/-! ### Reconstruction (43_reconstruct.md) -/

/-- Bias(RND): bias_r, bias_g, bias_b (R196). -/
def biasOf : Bool → Nat × Nat × Nat
  | true => (128, 256, 128)
  | false => (0, 0, 0)

/-- One component: (sum + bias) * gain, shifted and clamped to 255 (R197, R198). -/
def component (sum bias gain shift : Nat) : Byte := BitVec.ofNat 8 (min 255 (((sum + bias) * gain) >>> shift))

/-- Pixel(i, bR, bG, bB) from the four channel values at one index (R197). -/
def pixelOf (g : Regs) (r gr gb b : Sample) : Pixel :=
  let bias := biasOf g.rnd
  { r := component r.toNat bias.1 g.gainR.toNat 20
    g := component (gr.toNat + gb.toNat) bias.2.1 g.gainG.toNat 21
    b := component b.toNat bias.2.2 g.gainB.toNat 20 }

/-- OutDims(EDGE, w, h): the preview's width and height (R199). -/
def outDims (e : Edge) (w h : Nat) : Nat × Nat :=
  match e with
  | .zero => (w, h)
  | .crop => (w - 1, h - 1)
  | .full => (w, h)

/-- The code of EDGE in RECON_CTRL (R39, R114). -/
def edgeCode : Edge → BitVec 2
  | .zero => 0
  | .crop => 1
  | .full => 2

/-- EDGE is WARL: a write of 3 leaves it as it was (R39). -/
def edgeWrite (code : BitVec 2) (old : Edge) : Edge :=
  if code = 0 then .zero
  else if code = 1 then .crop
  else if code = 2 then .full
  else old

end Sys2Proof.Machine
end

