-- ==== Sys2Proof/Machine/Flags.lean ====
section
/-! DEFINITION. The flags of RAWDEC: what STATUS and irq show (R27, R240), how the validity bits change (R48, R49), and how the flags are
set at acceptance and completion and cleared by the host (R27, R215, R216). -/

namespace Sys2Proof.Machine

/-- STATUS.BUSY: a command is pending (R27, R47). -/
def State.busy (s : State) : Bool := s.pending.isSome

/-- The interrupt output, and STATUS.IRQ (R240). -/
def Regs.irq (g : Regs) : Bool := (g.done && g.doneIe) || (g.err && g.errIe)

/-- The level of the irq output in a state (R11, R240). -/
def State.irq (s : State) : Bool := s.regs.irq

/-- What a read of STATUS returns (R27). -/
def State.statusWord (s : State) : Word :=
  0#24 ++ BitVec.ofBool s.regs.irq ++ BitVec.ofBool s.regs.rgbV ++ BitVec.ofBool s.regs.chV ++ BitVec.ofBool s.regs.planeV
    ++ BitVec.ofBool s.regs.satf ++ BitVec.ofBool s.regs.err ++ BitVec.ofBool s.regs.done ++ BitVec.ofBool s.busy

/-- A write of d to STATUS: write-1-to-clear of DONE, ERR and SATF, every other bit ignored (R27). -/
def Regs.clearStatus (g : Regs) (d : Word) : Regs :=
  { g with
    done := g.done && !d.getLsbD 1
    err := g.err && !d.getLsbD 2
    satf := g.satf && !d.getLsbD 3 }

/-- The flags at acceptance (R215). -/
def Regs.acceptFlags (g : Regs) : Regs := { g with done := false, err := false, satf := false, errcode := 0 }

/-- The flags at completion with an error or none (R216). -/
def Regs.completeFlags (g : Regs) (e : Option Err) : Regs := { g with errcode := codeOf e, done := true, err := e.isSome }

/-- The validity bits after a failing DECODE (R48). -/
def Regs.invalidateAll (g : Regs) : Regs := { g with planeV := false, chV := false, rgbV := false }

/-- The validity bits after a failing SPLIT (R48). -/
def Regs.invalidateFromCh (g : Regs) : Regs := { g with chV := false, rgbV := false }

/-- The validity bits after a failing RECON, and after an accepted write to a gain or to RECON_CTRL (R48, R49). -/
def Regs.invalidateRgb (g : Regs) : Regs := { g with rgbV := false }

end Sys2Proof.Machine
end

