-- ==== Sys2Proof/Machine/Ops.lean ====
section
/-! DEFINITION. The shared operations: reading and writing the memories (R50), completion, the analogue of taking an exception (R216, R236),
acceptance (R215), and the two resets (R265, R266). -/

namespace Sys2Proof.Machine

/-! ### Memories -/

/-- The value listed at an index, if any. -/
def findCell {α : Type} (i : Nat) : List (Nat × α) → Option α
  | [] => none
  | (a, v) :: rest => if a = i then some v else findCell i rest

/-- Write one cell, keeping the indexes strictly rising. -/
def setCell {α : Type} (i : Nat) (v : α) : List (Nat × α) → List (Nat × α)
  | [] => [(i, v)]
  | (a, w) :: rest =>
    if i < a then (i, v) :: (a, w) :: rest
    else if i = a then (i, v) :: rest
    else (a, w) :: setCell i v rest

/-- Read element i: what is listed there, else the free value of the memory's draw (R52, log 3). -/
def Memory.read {α : Type} (m : Memory α) (free : Nat → Nat → α) (i : Nat) : α :=
  match findCell i m.cells with
  | some v => v
  | none => free m.gen i

/-- Write element i: `M[i] <- v` (R14). -/
def Memory.write {α : Type} (m : Memory α) (i : Nat) (v : α) : Memory α := { m with cells := setCell i v m.cells }

/-- Write the extent 0 .. n-1 and nothing else: "Every other element keeps its value" (R50, R158). -/
def Memory.overwrite {α : Type} (m : Memory α) (n : Nat) (value : Nat → α) : Memory α :=
  { m with cells := (List.range n).map (fun i => (i, value i)) ++ m.cells.filter (fun c => decide (n ≤ c.1)) }

/-- `IN[a]` (R14). -/
def State.readIn (s : State) (a : Nat) : Byte := s.inMem.read Config.freeByte a

/-- `PLANE[i]` (R14). -/
def State.readPlane (s : State) (i : Nat) : Sample := s.plane.read (Config.freeSample .plane) i

/-- The channel memory of a role: R is CH_R, and so on (R182). -/
def State.ch (s : State) : Role → Memory Sample
  | .r => s.chR
  | .gr => s.chGr
  | .gb => s.chGb
  | .b => s.chB

/-- Replace the channel memory of a role. -/
def State.setCh (s : State) (role : Role) (m : Memory Sample) : State :=
  match role with
  | .r => { s with chR := m }
  | .gr => { s with chGr := m }
  | .gb => { s with chGb := m }
  | .b => { s with chB := m }

/-- `CH_R[i]`, `CH_GR[i]`, `CH_GB[i]`, `CH_B[i]` (R14). -/
def State.readCh (s : State) (role : Role) (i : Nat) : Sample := (s.ch role).read (Config.freeSample (.ch role)) i

/-- `RGB[i]` (R14). -/
def State.readRgb (s : State) (i : Nat) : Pixel := s.rgb.read Config.freePixel i

/-! ### Completion and acceptance -/

/-- `complete(code)`: how every command ends, and with an error the analogue of taking an exception (R216, R236, C10). Nothing else
is saved, and control goes nowhere. -/
def complete (e : Option Err) (s : State) : State := { s with pending := none, regs := s.regs.completeFlags e }

/-- Acceptance of the command word c, which is not looked at (R215). -/
def accept (c : Word) (s : State) : State := { s with pending := some c, regs := s.regs.acceptFlags }

/-- A body that ended with an error or none, completed (R216). -/
def finish (result : State × Option Err) : Host.Outcome State Fault Refusal := .next (complete result.2 result.1)

/-! ### Reset -/

/-- All six output memories unspecified: one new draw of every element (R266, log 3). -/
def State.drawOutputs (s : State) : State :=
  { s with
    plane := Memory.fresh s.draws
    chR := Memory.fresh s.draws
    chGr := Memory.fresh s.draws
    chGb := Memory.fresh s.draws
    chB := Memory.fresh s.draws
    rgb := Memory.fresh s.draws
    draws := s.draws + 1 }

/-- Every register at its reset value and no command pending (R52). -/
def State.resetRegs (s : State) : State := { s with regs := Regs.reset, pending := none }

/-- Soft reset (R266): IN keeps its contents, and so do the output memories unless a command is abandoned. -/
def softReset (s : State) : State :=
  match s.pending with
  | none => s.resetRegs
  | some _ => s.resetRegs.drawOutputs

/-- Hardware reset (R265): every memory unspecified. -/
def hardReset (s : State) : State := { s.resetRegs.drawOutputs with inMem := Memory.fresh s.draws }

end Sys2Proof.Machine
end

