-- ==== Sys2Proof/Machine/Registers.lean ====
section
/-! DEFINITION. The register map (R23): the registers, their offsets, what a read returns (R74) and what an accepted write does (R26 to R39). -/

namespace Sys2Proof.Machine

/-- The registers of the map (R23), by their names there. -/
inductive Reg where
  | id | version | capMaxw | capMaxh | capInsize | ctrl | cmd | status | errcode | irqEn
  | descW | descH | descFmt | descHdr | descLpad | descRpad | inLen
  | gainR | gainG | gainB | reconCtrl
  | deriv | stride | reqLen | descCheck
  | planeW | planeH | chW | chH | rgbW | rgbH
deriving DecidableEq, Repr

/-- The offset of a register in the REG window (R23). -/
def Reg.offset : Reg → Nat
  | .id => 0x000
  | .version => 0x004
  | .capMaxw => 0x008
  | .capMaxh => 0x00C
  | .capInsize => 0x010
  | .ctrl => 0x020
  | .cmd => 0x024
  | .status => 0x028
  | .errcode => 0x02C
  | .irqEn => 0x030
  | .descW => 0x040
  | .descH => 0x044
  | .descFmt => 0x048
  | .descHdr => 0x04C
  | .descLpad => 0x050
  | .descRpad => 0x054
  | .inLen => 0x058
  | .gainR => 0x060
  | .gainG => 0x064
  | .gainB => 0x068
  | .reconCtrl => 0x06C
  | .deriv => 0x080
  | .stride => 0x084
  | .reqLen => 0x088
  | .descCheck => 0x08C
  | .planeW => 0x0A0
  | .planeH => 0x0A4
  | .chW => 0x0A8
  | .chH => 0x0AC
  | .rgbW => 0x0B0
  | .rgbH => 0x0B4

/-- Every register of the map, in the map's order (R23). -/
def allRegs : List Reg :=
  [.id, .version, .capMaxw, .capMaxh, .capInsize, .ctrl, .cmd, .status, .errcode, .irqEn,
   .descW, .descH, .descFmt, .descHdr, .descLpad, .descRpad, .inLen,
   .gainR, .gainG, .gainB, .reconCtrl, .deriv, .stride, .reqLen, .descCheck,
   .planeW, .planeH, .chW, .chH, .rgbW, .rgbH]

/-- The register at an offset of the REG window, if the map lists one (R73). -/
def regAt (off : Nat) : Option Reg := allRegs.find? (fun r => r.offset == off)

/-- What a read of a register returns (R74), reserved bits 0 (R51). -/
def readReg (r : Reg) (s : State) : Word :=
  match r with
  | .id => 0x52415744
  | .version => 7
  | .capMaxw => 0#16 ++ BitVec.ofNat 16 s.params.maxW
  | .capMaxh => 0#16 ++ BitVec.ofNat 16 s.params.maxH
  | .capInsize => BitVec.ofNat 32 s.params.inSize
  | .ctrl => 0
  | .cmd => 0
  | .status => s.statusWord
  | .errcode => 0#28 ++ s.regs.errcode
  | .irqEn => 0#30 ++ BitVec.ofBool s.regs.errIe ++ BitVec.ofBool s.regs.doneIe
  | .descW => 0#16 ++ s.regs.width
  | .descH => 0#16 ++ s.regs.height
  | .descFmt => 0#15 ++ BitVec.ofBool s.regs.bigEndian ++ 0#1 ++ s.regs.bayer ++ 0#3 ++ s.regs.bppOvr ++ 0#1 ++ s.regs.enc
  | .descHdr => s.regs.header
  | .descLpad => 0#16 ++ s.regs.lpad
  | .descRpad => 0#16 ++ s.regs.rpad
  | .inLen => s.regs.inLen
  | .gainR => 0#16 ++ s.regs.gainR
  | .gainG => 0#16 ++ s.regs.gainG
  | .gainB => 0#16 ++ s.regs.gainB
  | .reconCtrl => 0#29 ++ edgeCode s.regs.edge ++ BitVec.ofBool s.regs.rnd
  | .deriv => 0#21 ++ layoutCode s.regs.layout ++ 0#3 ++ BitVec.ofNat 5 s.regs.effBpp
  | .stride => BitVec.ofNat 32 s.regs.stride
  | .reqLen => BitVec.ofNat 32 (min s.regs.reqLen 0xFFFFFFFF)
  | .descCheck => 0#28 ++ codeOf (descCheck s.params s.regs)
  | .planeW => 0#16 ++ s.regs.planeW
  | .planeH => 0#16 ++ s.regs.planeH
  | .chW => 0#16 ++ s.regs.chW
  | .chH => 0#16 ++ s.regs.chH
  | .rgbW => 0#16 ++ s.regs.rgbW
  | .rgbH => 0#16 ++ s.regs.rgbH

/-- Bits \[15:0\] of a write, the field of every 16-bit register (R31, R32, R35, R36, R38). -/
def low16 (d : Word) : BitVec 16 := d.extractLsb' 0 16

/-- What an accepted write of d does, or `none` for an RO register, whose write gets SLVERR (R74). Reserved bits of d are ignored (R51). -/
def writeReg (r : Reg) (d : Word) (s : State) : Option State :=
  match r with
  | .ctrl => some (if d.getLsbD 0 then softReset s else s)
  | .cmd => some (accept d s)
  | .status => some { s with regs := s.regs.clearStatus d }
  | .irqEn => some { s with regs := { s.regs with doneIe := d.getLsbD 0, errIe := d.getLsbD 1 } }
  | .descW => some { s with regs := { s.regs with width := low16 d } }
  | .descH => some { s with regs := { s.regs with height := low16 d } }
  | .descFmt => some { s with regs := { s.regs with
      enc := d.extractLsb' 0 3, bppOvr := d.extractLsb' 4 5, bayer := d.extractLsb' 12 3, bigEndian := d.getLsbD 16 } }
  | .descHdr => some { s with regs := { s.regs with header := d } }
  | .descLpad => some { s with regs := { s.regs with lpad := low16 d } }
  | .descRpad => some { s with regs := { s.regs with rpad := low16 d } }
  | .inLen => some { s with regs := { s.regs with inLen := BitVec.ofNat 32 (min d.toNat s.params.inSize) } }
  | .gainR => some { s with regs := { s.regs.invalidateRgb with gainR := low16 d } }
  | .gainG => some { s with regs := { s.regs.invalidateRgb with gainG := low16 d } }
  | .gainB => some { s with regs := { s.regs.invalidateRgb with gainB := low16 d } }
  | .reconCtrl => some { s with regs := { s.regs.invalidateRgb with
      rnd := d.getLsbD 0, edge := edgeWrite (d.extractLsb' 1 2) s.regs.edge } }
  | .id | .version | .capMaxw | .capMaxh | .capInsize | .errcode | .deriv | .stride | .reqLen | .descCheck
  | .planeW | .planeH | .chW | .chH | .rgbW | .rgbH => none

/-- The registers the host may write while a command is pending (R80). -/
def writableWhileBusy : Reg → Bool
  | .ctrl | .status | .irqEn => true
  | .id | .version | .capMaxw | .capMaxh | .capInsize | .cmd | .errcode
  | .descW | .descH | .descFmt | .descHdr | .descLpad | .descRpad | .inLen
  | .gainR | .gainG | .gainB | .reconCtrl | .deriv | .stride | .reqLen | .descCheck
  | .planeW | .planeH | .chW | .chH | .rgbW | .rgbH => false

end Sys2Proof.Machine
end

