-- ==== Sys2Proof/Machine/Bus.lean ====
section
/-! DEFINITION. The host bus (20_memory.md): address decoding, the memory windows and their packing, and one host transaction as one
atomic step. -/

namespace Sys2Proof.Machine

/-- What an accepted address names: a register, or word k of a memory window (R72). -/
inductive Target where
  | reg (r : Reg)
  | inWord (k : Nat)
  | planeWord (k : Nat)
  | chWord (role : Role) (k : Nat)
  | rgbWord (k : Nat)
deriving DecidableEq, Repr

/-- Word k of a window with n implemented words (R72). -/
def wordBelow (n k : Nat) (t : Target) : Option Target := if k < n then some t else none

/-- The window and word of an address, by addr\[31:28\] and the word index in addr\[27:0\] (R72, R73). -/
def windowTarget (p : Params) (window k : Nat) : Option Target :=
  if window = 0 then (regAt (4 * k)).map .reg
  else if window = 1 then wordBelow (p.inSize / 4) k (.inWord k)
  else if window = 2 then wordBelow ((p.np + 1) / 2) k (.planeWord k)
  else if window = 3 then wordBelow ((p.nc + 1) / 2) k (.chWord .r k)
  else if window = 4 then wordBelow ((p.nc + 1) / 2) k (.chWord .gr k)
  else if window = 5 then wordBelow ((p.nc + 1) / 2) k (.chWord .gb k)
  else if window = 6 then wordBelow ((p.nc + 1) / 2) k (.chWord .b k)
  else if window = 7 then wordBelow p.nc k (.rgbWord k)
  else none

/-- The target of a transaction: none for a narrow or misaligned access (R71) and for an address the map does not hold (R72). -/
def target (p : Params) (addr : Word) (size : AccessSize) : Option Target :=
  if size = .word ∧ addr.toNat % 4 = 0 then
    windowTarget p (addr.toNat / 2 ^ 28) ((addr.toNat % 2 ^ 28) / 4)
  else none

/-- Whether a target lies in a memory window (R80). -/
def Target.inMemory : Target → Bool
  | .reg _ => false
  | .inWord _ | .planeWord _ | .chWord _ _ | .rgbWord _ => true

/-- Word k of a memory of n samples: the even index in the lower half, 0 above the last sample (R77, R78). -/
def packSamples (n k : Nat) (sampleAt : Nat → Sample) : Word :=
  (if 2 * k + 1 < n then sampleAt (2 * k + 1) else 0#16) ++ sampleAt (2 * k)

/-- A preview pixel as a word: r lowest, then g, then b (R79). -/
def packPixel (q : Pixel) : Word := 0#8 ++ q.b ++ q.g ++ q.r

/-- Word k of IN: the byte at the lower offset in the less significant lane (R75). -/
def State.inWord (s : State) (k : Nat) : Word :=
  s.readIn (4 * k + 3) ++ s.readIn (4 * k + 2) ++ s.readIn (4 * k + 1) ++ s.readIn (4 * k)

/-- What a read of a target returns when nothing refuses it (R74, R75, R77, R78, R79). -/
def readTarget (t : Target) (s : State) : Word :=
  match t with
  | .reg r => readReg r s
  | .inWord k => s.inWord k
  | .planeWord k => packSamples s.params.np k s.readPlane
  | .chWord role k => packSamples s.params.nc k (s.readCh role)
  | .rgbWord k => packPixel (s.readRgb k)

/-- A write of d to word k of IN (R75). It does not change IN_LEN. -/
def writeInWord (k : Nat) (d : Word) (s : State) : State :=
  { s with inMem := (((s.inMem.write (4 * k) (d.extractLsb' 0 8)).write (4 * k + 1) (d.extractLsb' 8 8)).write
      (4 * k + 2) (d.extractLsb' 16 8)).write (4 * k + 3) (d.extractLsb' 24 8) }

/-- What an accepted write of d to a target does; `none` where it is refused: an RO register or an output window (R74, R77 to R79). -/
def writeTarget (t : Target) (d : Word) (s : State) : Option State :=
  match t with
  | .reg r => writeReg r d s
  | .inWord k => some (writeInWord k d s)
  | .planeWord _ | .chWord _ _ | .rgbWord _ => none

/-- Whether a read of a target is refused because a command is pending (R80). -/
def readBlocked (t : Target) (s : State) : Bool := s.busy && t.inMemory

/-- Whether a write to a target is refused because a command is pending (R80). -/
def writeBlocked (t : Target) (s : State) : Bool :=
  s.busy && (match t with
    | .reg r => !writableWhileBusy r
    | .inWord _ | .planeWord _ | .chWord _ _ | .rgbWord _ => true)

/-- A bus read: rdata is 0 when the response is SLVERR (R70). -/
def busRead (addr : Word) (size : AccessSize) (s : State) : Reply :=
  match target s.params addr size with
  | none => .read .slverr 0
  | some t => if readBlocked t s then .read .slverr 0 else .read .okay (readTarget t s)

/-- A bus write: a refused one changes no state at all (R70). -/
def busWrite (addr : Word) (size : AccessSize) (d : Word) (s : State) : State × Response :=
  match target s.params addr size with
  | none => (s, .slverr)
  | some t =>
    if writeBlocked t s then (s, .slverr)
    else
      match writeTarget t d s with
      | none => (s, .slverr)
      | some s' => (s', .okay)

/-- One host transaction, as one atomic step of the block (R70). -/
def transact (t : Transaction) (s : State) : State × Reply :=
  match t with
  | .read addr size => (s, busRead addr size s)
  | .write addr size d => ((busWrite addr size d s).1, .write (busWrite addr size d s).2)

/-- A host transaction whose answer is kept for the host to see (R11, log 2). -/
def hostStep (t : Transaction) (s : State) : State :=
  let result := transact t s
  { result.1 with replies := result.2 :: result.1.replies }

end Sys2Proof.Machine
end

