-- ==== Sys2Proof/Machine/Recon.lean ====
section
/-! DEFINITION. RECON, the RGB reconstructor (43_reconstruct.md). -/

namespace Sys2Proof.Machine

/-- The preview pixel computed from channel index i (R197). -/
def State.pixelAt (s : State) (i : Nat) : Pixel :=
  pixelOf s.regs (s.readCh .r i) (s.readCh .gr i) (s.readCh .gb i) (s.readCh .b i)

/-- The value of preview pixel (y, x) over channels w wide and h high: zero on the last row and column in ZERO mode (R195, R199). -/
def State.previewPixel (s : State) (w h y x : Nat) : Pixel :=
  if s.regs.edge = .zero ∧ (y = h - 1 ∨ x = w - 1) then { r := 0, g := 0, b := 0 } else s.pixelAt (y * w + x)

/-- The body of RECON with its check passed (R195, R200). -/
def reconPreview (s : State) : State :=
  let w := s.regs.chW.toNat
  let h := s.regs.chH.toNat
  let ow := (outDims s.regs.edge w h).1
  let oh := (outDims s.regs.edge w h).2
  { s with
    rgb := s.rgb.overwrite (ow * oh) (fun i => s.previewPixel w h (i / ow) (i % ow))
    regs := { s.regs with rgbW := BitVec.ofNat 16 ow, rgbH := BitVec.ofNat 16 oh, rgbV := true } }

/-- The body of RECON up to `complete` (R195). -/
def reconBody (s : State) : State × Option Err :=
  if s.regs.chV = false then ({ s with regs := s.regs.invalidateRgb }, some .notReady)
  else (reconPreview s, none)

/-- RECON (R195). -/
def execRecon (s : State) : Host.Outcome State Fault Refusal := finish (reconBody s)

end Sys2Proof.Machine
end

