-- ==== Sys2Proof/Machine/Split.lean ====
section
/-! DEFINITION. SPLIT, the Bayer channel splitter (42_split.md). -/

namespace Sys2Proof.Machine

/-- The index in PLANE of element i of quadrant (a, b), in channels w wide: plane sample (2y + a, 2x + b) with i = y*w + x (R180, R181). -/
def quadrantIndex (planeW w : Nat) (a b : Bool) (i : Nat) : Nat :=
  (2 * (i / w) + a.toNat) * planeW + (2 * (i % w) + b.toNat)

/-- Write quadrant (a, b) to the channel memory of its role (R180). -/
def writeQuadrant (o : BayerOrder) (w h : Nat) (a b : Bool) (s : State) : State :=
  s.setCh (roleOf o a b)
    ((s.ch (roleOf o a b)).overwrite (w * h) (fun i => s.readPlane (quadrantIndex s.regs.planeW.toNat w a b i)))

/-- The body of SPLIT with its checks passed (R180, R183). -/
def splitChannels (o : BayerOrder) (s : State) : State :=
  let w := s.regs.planeW.toNat / 2
  let h := s.regs.planeH.toNat / 2
  let s1 := writeQuadrant o w h true true (writeQuadrant o w h true false
    (writeQuadrant o w h false true (writeQuadrant o w h false false s)))
  { s1 with regs := { s1.regs with chW := BitVec.ofNat 16 w, chH := BitVec.ofNat 16 h, chV := true, rgbV := false } }

/-- The body of SPLIT up to `complete` (R180). -/
def splitBody (s : State) : State × Option Err :=
  if s.regs.planeV = false then ({ s with regs := s.regs.invalidateFromCh }, some .notReady)
  else
    match bayerOrderOf s.regs.bayer with
    | none => ({ s with regs := s.regs.invalidateFromCh }, some .unsupportedBayerOrder)
    | some o => (splitChannels o s, none)

/-- SPLIT (R180). -/
def execSplit (s : State) : Host.Outcome State Fault Refusal := finish (splitBody s)

end Sys2Proof.Machine
end

