-- ==== Sys2Proof/Machine/Unpack.lean ====
section
/-! DEFINITION. DECODE, the bit unpacker (41_unpack.md). -/

namespace Sys2Proof.Machine

/-- The raw sample (r, c) that a DECODE in layout L unpacks (R150, R151). -/
def State.rawSample (s : State) (L : Layout) (r c : Nat) : Nat := unpack L s.readIn s.regs (s.regs.rowBase r) c

/-- The rescaled sample that goes to PLANE\[i\], with i = r * WIDTH + c, and its overflow (R150, R158). -/
def State.planeSample (s : State) (L : Layout) (i : Nat) : Sample × Bool :=
  scale (s.rawSample L (i / s.regs.width.toNat) (i % s.regs.width.toNat)) s.regs.effBpp

/-- The body of DECODE with its checks passed (R150). -/
def decodePlane (L : Layout) (s : State) : State :=
  let n := s.regs.width.toNat * s.regs.height.toNat
  { s with
    plane := s.plane.overwrite n (fun i => (s.planeSample L i).1)
    regs := { s.regs with
      planeW := s.regs.width
      planeH := s.regs.height
      satf := (List.range n).any (fun i => (s.planeSample L i).2)
      planeV := true
      chV := false
      rgbV := false } }

/-- The body of DECODE up to `complete` (R150). A descriptor with no layout never passes the checks (R136). -/
def decodeBody (s : State) : State × Option Err :=
  match descCheck s.params s.regs, s.regs.layout with
  | some e, _ => ({ s with regs := s.regs.invalidateAll }, some e)
  | none, none => ({ s with regs := s.regs.invalidateAll }, some .unsupportedEncoding)
  | none, some L => (decodePlane L s, none)

/-- DECODE (R150). -/
def execDecode (s : State) : Host.Outcome State Fault Refusal := finish (decodeBody s)

end Sys2Proof.Machine
end

