-- ==== Sys2Proof/Machine/Control.lean ====
section
/-! DEFINITION. The commands that are no single stage: NOP, PIPE and the illegal command (44_control.md). -/

namespace Sys2Proof.Machine

/-- NOP (R217). -/
def execNop (s : State) : Host.Outcome State Fault Refusal := finish (s, none)

/-- Run the next stage after one that ended with no error; an error ends the command (R218). -/
def thenStage (result : State × Option Err) (next : State → State × Option Err) : State × Option Err :=
  match result.2 with
  | some e => (result.1, some e)
  | none => next result.1

/-- The three stages of PIPE, each in its turn (R218). -/
def pipeBody (s : State) : State × Option Err := thenStage (thenStage (decodeBody s) splitBody) reconBody

/-- PIPE (R218): `complete` is applied once. -/
def execPipe (s : State) : Host.Outcome State Fault Refusal := finish (pipeBody s)

/-- The illegal command, met by any word that decodes to no operation (R219). -/
def execIllegal (s : State) : Host.Outcome State Fault Refusal := finish (s, some .illegalCommand)

end Sys2Proof.Machine
end

