-- ==== Sys2Proof/Machine/Dispatch.lean ====
section
/-! DEFINITION. One arm per command of spec/opcode_table.json. -/

namespace Sys2Proof.Machine

def exec (i : Instr) (s : State) : Host.Outcome State Fault Refusal :=
  match i with
  | .nop => Sys2Proof.Machine.execNop s
  | .decode => Sys2Proof.Machine.execDecode s
  | .split => Sys2Proof.Machine.execSplit s
  | .recon => Sys2Proof.Machine.execRecon s
  | .pipe => Sys2Proof.Machine.execPipe s

end Sys2Proof.Machine
end

