-- ==== Sys2Proof/Machine/Engine.lean ====
section
/-! DEFINITION. The engine's step (R216) and one step of the whole block under its schedule of inputs (R10, R86, log 2). -/

namespace Sys2Proof.Machine

/-- The engine's step (R216): decode the pending word, run its body, complete. With nothing pending it is not enabled, and its turn
passes with no change. -/
def engineStep (s : State) : Host.Outcome State Fault Refusal :=
  match s.pending with
  | none => .next s
  | some c =>
    match decodeWord c with
    | .ok i => exec i s
    | .error _ => execIllegal s

/-- One step: the oldest input happens; with no input left the engine has the turn (log 2). -/
def stepBlock (s : State) : Host.Outcome State Fault Refusal :=
  match s.inputs with
  | [] => engineStep s
  | .host t :: rest => .next (hostStep t { s with inputs := rest })
  | .engine :: rest => engineStep { s with inputs := rest }
  | .hardReset :: rest => .next (hardReset { s with inputs := rest })

/-- A command word placed as pending with the engine to move next, as if the host had just written it to CMD (log 4). -/
def placeCommand (s : State) (c : Word) : State := { s with pending := some c, inputs := .engine :: s.inputs }

end Sys2Proof.Machine
end

