-- ==== Sys2Proof/Machine/Step.lean ====
section
/-! DEFINITION. One step of the machine, and where its next command stands. -/

namespace Sys2Proof.Machine

/-- One step of the block (R10, R86). -/
def step (s : State) : Host.Outcome State Fault Refusal := stepBlock s

/-- The state with a table row's word as the pending command and the engine to move next (log 4). A command is one 32-bit word
(R100). -/
def State.withFetchWord (s : State) (nbits w : Nat) : State := placeCommand s (BitVec.ofNat 32 (w % 2 ^ nbits))

end Sys2Proof.Machine
end

