-- ==== Sys2Proof/Machine/HostContract.lean ====
section
/-! DEFINITION. The contracts that bind the host's software, outside the block (R7): from the source's strings and reals to field codes
(R109 to R113), the raw16 writer (R83), and the assembler lines of host programs (R115). No step of the machine uses them (log 5). -/

namespace Sys2Proof.Machine

/-- One letter in lower case. -/
def lowerChar (c : Char) : Char := if 'A' ≤ c ∧ c ≤ 'Z' then Char.ofNat (c.toNat + 32) else c

/-- Whether a text contains a word, as consecutive letters. -/
def containsWord (word : List Char) : List Char → Bool
  | [] => word.isEmpty
  | c :: rest => word.isPrefixOf (c :: rest) || containsWord word rest

/-- ENC from an encoding identifier: the first match in the source's listing order (R109). -/
def encOfIdentifier (s : List Char) : BitVec 3 :=
  let t := s.map lowerChar
  if containsWord ['r', 'a', 'w', '8'] t then 0
  else if containsWord ['r', 'a', 'w', '1', '0'] t then 1
  else if containsWord ['r', 'a', 'w', '1', '2'] t then 2
  else if containsWord ['r', 'a', 'w', '1', '4'] t then 4
  else if containsWord ['r', 'a', 'w', '1', '6'] t then 3
  else 7

/-- BPP_OVR from the optional override (R110). -/
def bppOvrOf (o : Option Int) : BitVec 5 :=
  match o with
  | none => 0
  | some v => if v ≤ 0 then 0 else if v ≤ 16 then BitVec.ofNat 5 v.toNat else 31

/-- BAYER from the order string, by whole-string equality after case folding (R111). -/
def bayerOfString (s : List Char) : BitVec 3 :=
  let t := s.map lowerChar
  if t = ['g', 'r', 'b', 'g'] then 0
  else if t = ['r', 'g', 'g', 'b'] then 1
  else if t = ['b', 'g', 'g', 'r'] then 2
  else if t = ['g', 'b', 'r', 'g'] then 3
  else 7

/-- ENDIAN from the endianness string; any other string is refused by the host (R112). -/
def endianOfString (s : List Char) : Option Bool :=
  if s = ['l', 'e'] then some false else if s = ['b', 'e'] then some true else none

/-- GAIN from a gain num / den; a negative one is refused by the host (R113). -/
def gainOfRational (num : Int) (den : Nat) : Option (BitVec 16) :=
  if num < 0 ∨ den = 0 then none else some (BitVec.ofNat 16 (min 65535 ((2 * num.toNat * 4096 + den) / (2 * den))))

/-- The two bytes of a sample in a persisted raw16 file (R83). -/
def raw16FileBytes (bigEndian : Bool) (v : Sample) : List Byte :=
  if bigEndian then [v.extractLsb' 8 8, v.extractLsb' 0 8] else [v.extractLsb' 0 8, v.extractLsb' 8 8]

/-- The lines of a host program (R115). -/
inductive AsmLine where
  | wr (r : Reg) (v : Word)
  | wrAddr (addr v : Word)
  | rd (r : Reg)
  | rdAddr (addr : Word)
  | cmd (i : Instr)
  | wait
  | inw (off : Word) (b0 b1 b2 b3 : Byte)
  | fmt (enc ovr bayer endian : Word)
  | rctl (rnd edge : Word)
deriving DecidableEq, Repr

/-- A 32-bit write to an absolute offset. -/
def busWr (addr v : Word) : Input := .host (.write addr .word v)

/-- The address of a register: the REG window starts at 0 (R72). -/
def regAddr (r : Reg) : Word := BitVec.ofNat 32 r.offset

/-- The inputs a line stands for (R115). WAIT stands for its final read, after the engine's turn: the schedule in which the engine
moves before the host looks (log 5). -/
def AsmLine.inputs : AsmLine → List Input
  | .wr r v => [busWr (regAddr r) v]
  | .wrAddr addr v => [busWr addr v]
  | .rd r => [.host (.read (regAddr r) .word)]
  | .rdAddr addr => [.host (.read addr .word)]
  | .cmd i => [busWr (regAddr .cmd) (encode i)]
  | .wait => [.engine, .host (.read (regAddr .status) .word)]
  | .inw off b0 b1 b2 b3 => [busWr (0x10000000 + off) (b3 ++ b2 ++ b1 ++ b0)]
  | .fmt enc ovr bayer endian => [busWr (regAddr .descFmt) (enc ||| ovr <<< 4 ||| bayer <<< 12 ||| endian <<< 16)]
  | .rctl rnd edge => [busWr (regAddr .reconCtrl) (rnd ||| edge <<< 1)]

/-- The inputs of a host program, in its order (R86, R115). -/
def asmInputs (lines : List AsmLine) : List Input := lines.flatMap AsmLine.inputs

end Sys2Proof.Machine
end

