-- ==== Sys2Proof/Safety.lean ====
section
/-! DEFINITION. What counts as a sound state of RAWDEC, in the terms the claims use: the memories hold only elements that exist, the latched
geometry fits them (R159, R185, R201), the flags fit together (R242, I15), and a validity bit means what R27 says. -/

namespace Sys2Proof.Machine

/-- Every memory is in its canonical form. -/
structure State.MemoriesCanonical (s : State) : Prop where
  inMem : s.inMem.wf
  plane : s.plane.wf
  ch : ∀ role, (s.ch role).wf
  rgb : s.rgb.wf

/-- Every memory lists only elements that exist (R50). -/
structure State.MemoriesInside (s : State) : Prop where
  inMem : s.inMem.below s.params.inSize
  plane : s.plane.below s.params.np
  ch : ∀ role, (s.ch role).below s.params.nc
  rgb : s.rgb.below s.params.nc

/-- Every memory's contents come from a draw already made, so the next draw is a new one (R52, log 3). -/
structure State.DrawsMade (s : State) : Prop where
  inMem : s.inMem.gen < s.draws
  plane : s.plane.gen < s.draws
  ch : ∀ role, (s.ch role).gen < s.draws
  rgb : s.rgb.gen < s.draws

/-- IN_LEN and the latched geometry fit the memories (R37, R44 to R46, R185). -/
structure State.GeometryFits (s : State) : Prop where
  inLen : s.regs.inLen.toNat ≤ s.params.inSize
  planeW : s.regs.planeW.toNat ≤ s.params.maxW
  planeH : s.regs.planeH.toNat ≤ s.params.maxH
  chW : s.regs.chW.toNat ≤ s.params.maxW / 2
  chH : s.regs.chH.toNat ≤ s.params.maxH / 2
  rgbW : s.regs.rgbW.toNat ≤ s.params.maxW / 2
  rgbH : s.regs.rgbH.toNat ≤ s.params.maxH / 2

/-- The flags fit together. -/
structure State.FlagsFit (s : State) : Prop where
  /-- Codes 7 .. 15 are never produced (R235). -/
  code_legal : s.regs.errcode.toNat ≤ 6
  /-- "a completion can never find DONE already set by an earlier command" (R242). -/
  busy_clear : s.busy = true → s.regs.done = false ∧ s.regs.err = false ∧ s.regs.satf = false ∧ s.regs.errcode = 0
  /-- ERR is set only with an error code (R216). -/
  err_coded : s.regs.err = true → s.regs.errcode ≠ 0
  /-- Only a DECODE that succeeded saturates (R150). -/
  satf_plane : s.regs.satf = true → s.regs.planeV = true
  /-- A channel set is split from a valid plane (R48). -/
  ch_plane : s.regs.chV = true → s.regs.planeV = true
  /-- A preview is reconstructed from a valid channel set (R48). -/
  rgb_ch : s.regs.rgbV = true → s.regs.chV = true

/-- The invariant of the block: every step keeps it. -/
structure State.Inv (s : State) : Prop where
  params : s.params.WellFormed
  canonical : s.MemoriesCanonical
  inside : s.MemoriesInside
  draws : s.DrawsMade
  geometry : s.GeometryFits
  flags : s.FlagsFit

/-- The channel memories hold the split of the current plane under the order o: quadrant (a, b) in the memory of its role (R180 to R183). -/
def State.ChannelsSplit (s : State) (o : BayerOrder) : Prop :=
  s.regs.chW.toNat = s.regs.planeW.toNat / 2 ∧ s.regs.chH.toNat = s.regs.planeH.toNat / 2 ∧
  ∀ (a b : Bool) (y x : Nat), y < s.regs.chH.toNat → x < s.regs.chW.toNat →
    s.readCh (roleOf o a b) (y * s.regs.chW.toNat + x)
      = s.readPlane ((2 * y + a.toNat) * s.regs.planeW.toNat + (2 * x + b.toNat))

/-- RGB holds the preview of the current channels under the current gains and RECON_CTRL (R195 to R200). -/
def State.PreviewCurrent (s : State) : Prop :=
  (s.regs.rgbW.toNat, s.regs.rgbH.toNat) = outDims s.regs.edge s.regs.chW.toNat s.regs.chH.toNat ∧
  ∀ y x : Nat, y < s.regs.rgbH.toNat → x < s.regs.rgbW.toNat →
    s.readRgb (y * s.regs.rgbW.toNat + x) = s.previewPixel s.regs.chW.toNat s.regs.chH.toNat y x

/-- "CH_R, CH_GR, CH_GB and CH_B hold the result of the last successful SPLIT of the current plane" and "RGB holds the result of the
last successful RECON of the current channels and gains" (R27). -/
structure State.ResultsValid (s : State) : Prop where
  channels : s.regs.chV = true → ∃ o, s.ChannelsSplit o
  preview : s.regs.rgbV = true → s.PreviewCurrent

end Sys2Proof.Machine
end

