-- ==== Sys2Proof/Certificates/Slice0/Obligations.lean ====
section
/-! DEFINITION. The statements for the provers. -/

open Sys2Proof Sys2Proof.Machine

namespace Sys2Proof.Claims

/-- The checks of DECODE pass for a descriptor whose layout is L (R135, R136, R137). -/
structure DecodeReady (L : Layout) (s : State) : Prop where
  layout : s.regs.layout = some L
  width_pos : 1 ≤ s.regs.width.toNat
  width_le : s.regs.width.toNat ≤ s.params.maxW
  height_pos : 1 ≤ s.regs.height.toNat
  height_le : s.regs.height.toNat ≤ s.params.maxH
  depth_le : s.regs.bppOvr.toNat ≤ 16
  length_le : s.regs.reqLen ≤ s.regs.inLen.toNat

/-- The rescaled sample of R156: raw * 65535 / (2^bpp - 1), rounded to nearest and clamped to 65535. -/
def rescaled (raw bpp : Nat) : Nat := min 65535 ((2 * raw * 65535 + (2 ^ bpp - 1)) / (2 * (2 ^ bpp - 1)))

/-- The plane after a DECODE holds, at index r * WIDTH + c, the rescaled value of `raw r c` (R150, R158). -/
def PlaneHolds (s t : State) (raw : Nat → Nat → Nat) : Prop :=
  ∀ r c, r < s.regs.height.toNat → c < s.regs.width.toNat →
    (t.readPlane (r * s.regs.width.toNat + c)).toNat = rescaled (raw r c) s.regs.effBpp

/-- The preview pixel at index j has the components of R197 for channel index i. -/
def PixelComputed (s t : State) (j i : Nat) : Prop :=
  let bias := if s.regs.rnd then 128 else 0
  let biasG := if s.regs.rnd then 256 else 0
  (t.readRgb j).r.toNat = min 255 (((s.readCh .r i).toNat + bias) * s.regs.gainR.toNat / 2 ^ 20) ∧
  (t.readRgb j).g.toNat = min 255 (((s.readCh .gr i).toNat + (s.readCh .gb i).toNat + biasG) * s.regs.gainG.toNat / 2 ^ 21) ∧
  (t.readRgb j).b.toNat = min 255 (((s.readCh .b i).toNat + bias) * s.regs.gainB.toNat / 2 ^ 20)

/-- A register offset as a bus address. -/
def at_ (off : Nat) : Word := BitVec.ofNat 32 off

/-- The registers a write of which gets SLVERR (R74). -/
def readOnlyRegs : List Reg :=
  [.id, .version, .capMaxw, .capMaxh, .capInsize, .errcode, .deriv, .stride, .reqLen, .descCheck,
   .planeW, .planeH, .chW, .chH, .rgbW, .rgbH]

/-- The RW registers that store what is written but for their reserved bits, with the mask of their fields (R29, R31 to R36, R38). -/
def plainRegs : List (Reg × Word) :=
  [(.irqEn, 0x3), (.descW, 0xFFFF), (.descH, 0xFFFF), (.descFmt, 0x171F7), (.descHdr, 0xFFFFFFFF), (.descLpad, 0xFFFF),
   (.descRpad, 0xFFFF), (.gainR, 0xFFFF), (.gainG, 0xFFFF), (.gainB, 0xFFFF)]

/-- The word-aligned offsets of the REG window that the register map lists (R23). -/
def listedOffsets : List Nat :=
  [0x000, 0x004, 0x008, 0x00C, 0x010, 0x020, 0x024, 0x028, 0x02C, 0x030, 0x040, 0x044, 0x048, 0x04C, 0x050, 0x054, 0x058,
   0x060, 0x064, 0x068, 0x06C, 0x080, 0x084, 0x088, 0x08C, 0x0A0, 0x0A4, 0x0A8, 0x0AC, 0x0B0, 0x0B4]

/-- The addresses that name something (R72): a listed register, or a word of a window below its implemented end. -/
def Implemented (p : Params) (a : Nat) : Prop :=
  a ∈ listedOffsets ∨
  (0x10000000 ≤ a ∧ a < 0x10000000 + p.inSize) ∨
  (0x20000000 ≤ a ∧ a < 0x20000000 + 4 * ((p.maxW * p.maxH + 1) / 2)) ∨
  (∃ k, k < 4 ∧ (3 + k) * 0x10000000 ≤ a ∧ a < (3 + k) * 0x10000000 + 4 * (((p.maxW / 2) * (p.maxH / 2) + 1) / 2)) ∨
  (0x70000000 ≤ a ∧ a < 0x70000000 + 4 * ((p.maxW / 2) * (p.maxH / 2)))

/-- How many low bits of packed byte k of a row DECODE uses: all 8, but in the low-bits byte of a partial last group only those of the
samples present (R153, R154). -/
def usedBits (L : Layout) (width k : Nat) : Nat :=
  if k + 1 = rowBytes width (some L) then
    match L with
    | .raw10 => if width % 4 = 0 then 8 else 2 * (width % 4)
    | .raw12 => if width % 2 = 0 then 8 else 4
    | .raw8 | .raw16 => 8
  else 8

/-- The pending word is a command that writes PLANE (R50): DECODE or PIPE. -/
def WritesPlane (c : Word) : Prop := c = 1 ∨ c = 4

/-- The pending word is a command that writes the channel memories (R50): SPLIT or PIPE. -/
def WritesChannels (c : Word) : Prop := c = 2 ∨ c = 4

/-- The pending word is a command that writes RGB (R50): RECON or PIPE. -/
def WritesRgb (c : Word) : Prop := c = 3 ∨ c = 4

/-- The next thing to happen is the engine's turn, with c pending. -/
def EngineRuns (s : State) (c : Word) : Prop :=
  s.pending = some c ∧ (s.inputs = [] ∨ ∃ rest, s.inputs = .engine :: rest)

/-- The next thing to happen discards the contents of the output memories: a hardware reset, or a soft reset while busy (R265, R266). -/
def OutputsDrawn (s : State) : Prop :=
  ∃ rest, s.inputs = .hardReset :: rest ∨
    (s.busy = true ∧ ∃ d : Word, d.getLsbD 0 = true ∧ s.inputs = .host (.write (at_ 0x020) .word d) :: rest)

end Sys2Proof.Claims

open Sys2Proof.Claims

/-! ### Command words and the engine's step -/

/-- The words of the opcode map (R101), and two that are none (R102, R103). -/
def Obligations.OpcodeMapWords : Prop :=
  decodeWord 0x00000000 = .ok .nop ∧ decodeWord 0x00000001 = .ok .decode ∧ decodeWord 0x00000002 = .ok .split ∧
  decodeWord 0x00000003 = .ok .recon ∧ decodeWord 0x00000004 = .ok .pipe ∧
  decodeWord 0x00000005 = .error .reservedOp ∧ decodeWord 0x00000011 = .error .reservedBits

/-- R116: c\[31:4\] is c div 16 and c\[3:0\] is c mod 16. -/
def Obligations.DecoderIsTotalAsR116 : Prop :=
  ∀ c : Word, decodeWord c =
    if c.toNat / 16 ≠ 0 then .error .reservedBits
    else match c.toNat % 16 with
      | 0 => .ok .nop
      | 1 => .ok .decode
      | 2 => .ok .split
      | 3 => .ok .recon
      | 4 => .ok .pipe
      | _ => .error .reservedOp

/-- Decode and encode agree, in both directions (R101). -/
def Obligations.DecodeInvertsEncode : Prop :=
  ∀ (c : Word) (i : Instr), decodeWord c = .ok i ↔ c = encode i

/-- What a step runs: on the engine's turn the command the pending word decodes to (R216), or nothing when none is pending (R249, R267);
`withFetchWord` places a command; and on a host transaction the bus read or write (R70), at the block as it then stands, whose answer
joins `replies`. The hardware reset is `HardwareResetForgetsAll`. Which of these comes next is data in State (log 2). -/
def Obligations.StepRunsPendingCommand : Prop :=
  (∀ (s : State) (c : Word) (i : Instr), s.pending = some c → decodeWord c = .ok i →
    (s.inputs = [] → step s = exec i s) ∧
    (∀ rest, s.inputs = .engine :: rest → step s = exec i { s with inputs := rest })) ∧
  (∀ (s : State) (nbits w : Nat) (i : Instr), decodeTableWord nbits w = some i →
    step (s.withFetchWord nbits w) = exec i { s with pending := some (BitVec.ofNat 32 (w % 2 ^ nbits)) }) ∧
  (∀ s : State, s.pending = none →
    (s.inputs = [] → step s = .next s) ∧
    (∀ rest, s.inputs = .engine :: rest → step s = .next { s with inputs := rest })) ∧
  (∀ (s : State) (t : Transaction) (rest : List Input), s.inputs = .host t :: rest →
    let answer := transact t { s with inputs := rest }
    step s = .next { answer.1 with replies := answer.2 :: s.replies, inputs := rest }) ∧
  (∀ (s : State) (addr : Word) (size : AccessSize), transact (.read addr size) s = (s, busRead addr size s)) ∧
  (∀ (s : State) (addr : Word) (size : AccessSize) (d : Word),
    transact (.write addr size d) s = ((busWrite addr size d s).1, .write (busWrite addr size d s).2))

/-- R219: a word with RSV ≠ 0 or OP in 5 .. 15 completes with code 5 and no other effect. -/
def Obligations.IllegalCommandCompletesWithCode5 : Prop :=
  ∀ (s : State) (c : Word), s.pending = some c → (c.toNat / 16 ≠ 0 ∨ 5 ≤ c.toNat % 16) →
    (s.inputs = [] →
      step s = .next { s with pending := none, regs := { s.regs with done := true, err := true, errcode := 5 } }) ∧
    (∀ rest, s.inputs = .engine :: rest →
      step s = .next { s with
        pending := none, inputs := rest, regs := { s.regs with done := true, err := true, errcode := 5 } })

/-- R216, and that a command writes no configuration register and not IN (R14, R76): whatever the pending word, the engine's step
answers a next state in which the command is reported. -/
def Obligations.EngineStepReportsCompletion : Prop :=
  ∀ (s : State) (c : Word), EngineRuns s c →
    ∃ t, step s = .next t ∧ t.pending = none ∧ t.regs.done = true ∧ (t.regs.err = true ↔ t.regs.errcode ≠ 0) ∧
      t.regs.errcode.toNat ≤ 6 ∧ t.inMem = s.inMem ∧ t.params = s.params ∧ t.draws = s.draws ∧ t.replies = s.replies ∧
      t.inputs = s.inputs.tail ∧
      t.regs = { s.regs with
        done := t.regs.done, err := t.regs.err, satf := t.regs.satf, planeV := t.regs.planeV, chV := t.regs.chV,
        rgbV := t.regs.rgbV, errcode := t.regs.errcode, planeW := t.regs.planeW, planeH := t.regs.planeH,
        chW := t.regs.chW, chH := t.regs.chH, rgbW := t.regs.rgbW, rgbH := t.regs.rgbH }

/-- The engine is weakly fair (R274): once the host issues nothing more, no command stays pending. It rests on the model's schedule,
log 2. -/
def Obligations.EveryRunEndsIdle : Prop :=
  ∀ s : State, ∃ t : State, Host.Core.run core (s.inputs.length + 1) s = .next t ∧ t.pending = none ∧ t.inputs = []

/-! ### NOP -/

/-- R217, with the interrupt at its completion. -/
def Obligations.NopOnlyReportsCompletion : Prop :=
  ∀ s : State, ∃ t, exec .nop s = .next t ∧
    t = { s with pending := none, regs := { s.regs with done := true, err := false, errcode := 0 } } ∧
    (s.regs.doneIe = true → t.irq = true)

/-! ### The descriptor -/

/-- R41, with the stride of R133. -/
def Obligations.StrideRegisterIsExact : Prop :=
  (∀ s : State, (readReg .stride s).toNat
      = rowBytes s.regs.width.toNat s.regs.layout + s.regs.lpad.toNat + s.regs.rpad.toNat ∧
    (readReg .stride s).toNat ≤ 262140) ∧
  (∀ p : Params, readReg .stride (State.resetWith p) = 0)

/-- R42, with the length of R134; the check compares the exact length, not the register's. -/
def Obligations.ReqLenRegisterSaturates : Prop :=
  (∀ s : State, (readReg .reqLen s).toNat
      = min (s.regs.header.toNat + s.regs.height.toNat * (readReg .stride s).toNat) 0xFFFFFFFF) ∧
  (∀ s : State, s.regs.inLen.toNat < s.regs.header.toNat + s.regs.height.toNat * (readReg .stride s).toNat →
    readReg .descCheck s ≠ 0) ∧
  (∀ p : Params, readReg .reqLen (State.resetWith p) = 0)

/-- R40, with the effective depth of R130 and the layout of R131 written out. -/
def Obligations.DerivRegisterShowsDepthAndLayout : Prop :=
  (∀ s : State,
    let ovr := s.regs.bppOvr.toNat
    let enc := s.regs.enc.toNat
    let bpp := if ovr > 0 then ovr else
      match enc with | 0 => 8 | 1 => 10 | 2 => 12 | 3 => 16 | 4 => 14 | _ => 16
    let lay := if enc < 4 then enc else
      if ovr = 8 then 0 else if ovr = 10 then 1 else if ovr = 12 then 2 else if ovr = 16 then 3 else 7
    (readReg .deriv s).toNat = bpp + 256 * lay ∧ 1 ≤ bpp ∧ bpp ≤ 31) ∧
  (∀ p : Params, readReg .deriv (State.resetWith p) = 0x710)

/-- R132: the byte counts, in the spec's form and by groups, partial ones included. -/
def Obligations.RowBytesCountPartialGroups : Prop :=
  ∀ w : Nat, rowBytes w (some .raw8) = w ∧ rowBytes w (some .raw10) = (10 * w + 7) / 8 ∧
    rowBytes w (some .raw12) = (12 * w + 7) / 8 ∧ rowBytes w (some .raw16) = 2 * w ∧ rowBytes w none = 0 ∧
    rowBytes w (some .raw10) = 5 * (w / 4) + (if w % 4 = 0 then 0 else w % 4 + 1) ∧
    rowBytes w (some .raw12) = 3 * (w / 2) + (if w % 2 = 0 then 0 else 2) ∧
    (w ≤ 65535 → ∀ L, rowBytes w L ≤ 131070)

/-- R140: an unmatched encoding with no override shows depth 16 in DERIV, and its DECODE fails. -/
def Obligations.UnmatchedEncodingNeverDecodes : Prop :=
  ∀ s : State, 5 ≤ s.regs.enc.toNat → s.regs.bppOvr = 0 →
    (readReg .deriv s).toNat % 32 = 16 ∧ s.regs.layout = none ∧
    ∃ t, exec .decode s = .next t ∧ t.regs.errcode ≠ 0 ∧ ∀ i, t.readPlane i = s.readPlane i

/-! ### DECODE -/

/-- The checks of DECODE in their priority (R135, R136, R137), shown by DESC_CHECK and met by DECODE, which then changes only the flags
(R48, R150). -/
def Obligations.DecodeReportsFirstFailedCheck : Prop :=
  ∀ s : State,
    let badDim := s.regs.width.toNat = 0 ∨ s.regs.height.toNat = 0 ∨ s.regs.width.toNat > s.params.maxW ∨
      s.regs.height.toNat > s.params.maxH
    let badEnc := s.regs.bppOvr.toNat > 16 ∨ s.regs.layout = none
    let fails := fun (code : BitVec 4) =>
      readReg .descCheck s = 0#28 ++ code ∧
      exec .decode s = .next { s with
        pending := none
        regs := { s.regs with
          done := true, err := true, errcode := code, planeV := false, chV := false, rgbV := false } }
    (badDim → fails 1) ∧ (¬badDim → badEnc → fails 2) ∧
    (¬badDim → ¬badEnc → s.regs.reqLen > s.regs.inLen.toNat → fails 4) ∧
    (¬badDim → ¬badEnc → s.regs.reqLen ≤ s.regs.inLen.toNat → readReg .descCheck s = 0)

/-- When its checks pass DECODE completes with code 0 (R150), writes PLANE\[0 .. WIDTH*HEIGHT-1\] only (R158), and changes nothing else
but the registers named. -/
def Obligations.DecodeCompletesAndKeepsTheRest : Prop :=
  ∀ (s : State) (L : Layout), DecodeReady L s →
    ∃ t, exec .decode s = .next t ∧
      t = { s with
        plane := t.plane
        pending := none
        regs := { s.regs with
          planeW := s.regs.width, planeH := s.regs.height, satf := t.regs.satf, planeV := true, chV := false,
          rgbV := false, done := true, err := false, errcode := 0 } } ∧
      ∀ i, s.regs.width.toNat * s.regs.height.toNat ≤ i → t.readPlane i = s.readPlane i

/-- R152, at the row base of R151. -/
def Obligations.DecodeRaw8Samples : Prop :=
  ∀ s : State, DecodeReady .raw8 s → ∃ t, exec .decode s = .next t ∧
    PlaneHolds s t (fun r c =>
      (s.readIn (s.regs.header.toNat + r * (s.regs.width.toNat + s.regs.lpad.toNat + s.regs.rpad.toNat)
        + s.regs.lpad.toNat + c)).toNat)

/-- R153, at the row base of R151, with the partial last group. -/
def Obligations.DecodeRaw10Samples : Prop :=
  ∀ s : State, DecodeReady .raw10 s → ∃ t, exec .decode s = .next t ∧
    PlaneHolds s t (fun r c =>
      let base := s.regs.header.toNat + r * ((10 * s.regs.width.toNat + 7) / 8 + s.regs.lpad.toNat + s.regs.rpad.toNat)
        + s.regs.lpad.toNat
      let g := c / 4
      let j := c % 4
      let n := min 4 (s.regs.width.toNat - 4 * g)
      4 * (s.readIn (base + 5 * g + j)).toNat + (s.readIn (base + 5 * g + n)).toNat / 4 ^ j % 4)

/-- R154, at the row base of R151, with the partial last group. -/
def Obligations.DecodeRaw12Samples : Prop :=
  ∀ s : State, DecodeReady .raw12 s → ∃ t, exec .decode s = .next t ∧
    PlaneHolds s t (fun r c =>
      let base := s.regs.header.toNat + r * ((12 * s.regs.width.toNat + 7) / 8 + s.regs.lpad.toNat + s.regs.rpad.toNat)
        + s.regs.lpad.toNat
      let g := c / 2
      let j := c % 2
      let n := min 2 (s.regs.width.toNat - 2 * g)
      16 * (s.readIn (base + 3 * g + j)).toNat + (s.readIn (base + 3 * g + n)).toNat / 16 ^ j % 16)

/-- R155, at the row base of R151, in both byte orders. -/
def Obligations.DecodeRaw16Samples : Prop :=
  ∀ s : State, DecodeReady .raw16 s → ∃ t, exec .decode s = .next t ∧
    PlaneHolds s t (fun r c =>
      let base := s.regs.header.toNat + r * (2 * s.regs.width.toNat + s.regs.lpad.toNat + s.regs.rpad.toNat)
        + s.regs.lpad.toNat
      let b0 := (s.readIn (base + 2 * c)).toNat
      let b1 := (s.readIn (base + 2 * c + 1)).toNat
      if s.regs.bigEndian then 256 * b0 + b1 else 256 * b1 + b0)

/-- R157: the quotient exceeds 65535 exactly when the raw value exceeds 2^bpp - 1, such a sample is stored as 65535, SATF says whether
there was one, and only a BPP_OVR below the layout's own width can make one. -/
def Obligations.SatfMarksOverRangeSamples : Prop :=
  ∀ (s : State) (L : Layout), DecodeReady L s → ∃ t, exec .decode s = .next t ∧
    (t.regs.satf = true ↔ ∃ r c, r < s.regs.height.toNat ∧ c < s.regs.width.toNat ∧
      2 ^ s.regs.effBpp - 1 < s.rawSample L r c) ∧
    (∀ r c, r < s.regs.height.toNat → c < s.regs.width.toNat →
      (65535 < scaleQuotient (s.rawSample L r c) s.regs.effBpp ↔ 2 ^ s.regs.effBpp - 1 < s.rawSample L r c) ∧
      (2 ^ s.regs.effBpp - 1 < s.rawSample L r c → (t.readPlane (r * s.regs.width.toNat + c)).toNat = 65535)) ∧
    (t.regs.satf = true → 0 < s.regs.bppOvr.toNat ∧
      s.regs.bppOvr.toNat < (match L with | .raw8 => 8 | .raw10 => 10 | .raw12 => 12 | .raw16 => 16))

/-- R162: no tie occurs, so the quotient of R156 is strictly nearer to raw * 65535 / M than half a step. -/
def Obligations.RescaleNeverTies : Prop :=
  ∀ raw bpp : Nat, 1 ≤ bpp → bpp ≤ 16 →
    (∀ k, 2 * raw * 65535 ≠ (2 * k + 1) * (2 ^ bpp - 1)) ∧
    2 * scaleQuotient raw bpp * (2 ^ bpp - 1) < 2 * raw * 65535 + (2 ^ bpp - 1) ∧
    2 * raw * 65535 < 2 * scaleQuotient raw bpp * (2 ^ bpp - 1) + (2 ^ bpp - 1)

/-- R163: the raw ranges, and the rescale at the layout's own width, which is the effective depth where BPP_OVR = 0 and ENC names the
layout. -/
def Obligations.RawRangesAndMonotoneRescale : Prop :=
  ∀ (L : Layout),
    let bits := match L with | .raw8 => 8 | .raw10 => 10 | .raw12 => 12 | .raw16 => 16
    (∀ (byteAt : Nat → Byte) (g : Regs) (base c : Nat), unpack L byteAt g base c ≤ 2 ^ bits - 1) ∧
    (∀ g : Regs, g.bppOvr = 0 → g.layout = some L → g.effBpp = bits) ∧
    (∀ raw raw' : Nat, raw ≤ raw' → raw' ≤ 2 ^ bits - 1 →
      (scale raw bits).1.toNat ≤ (scale raw' bits).1.toNat ∧ (scale raw' bits).2 = false) ∧
    (scale 0 bits).1.toNat = 0 ∧ (scale (2 ^ bits - 1) bits).1.toNat = 65535

/-- R159: the packed bytes of a row lie below ReqLen, which is at most IN_LEN, which is at most IN_SIZE; a sample depends on no other
byte. -/
def Obligations.DecodeReadsStayInBounds : Prop :=
  ∀ (s : State) (L : Layout), s.Inv → DecodeReady L s →
    ∀ r, r < s.regs.height.toNat →
      s.regs.rowBase r + rowBytes s.regs.width.toNat (some L) ≤ s.regs.reqLen ∧ s.regs.reqLen ≤ s.regs.inLen.toNat ∧
      s.regs.inLen.toNat ≤ s.params.inSize ∧
      ∀ (other : Nat → Byte) (c : Nat), c < s.regs.width.toNat →
        (∀ k, k < rowBytes s.regs.width.toNat (some L) → other (s.regs.rowBase r + k) = s.readIn (s.regs.rowBase r + k)) →
        unpack L other s.regs (s.regs.rowBase r) c = s.rawSample L r c

/-- R160: the plane does not depend on the header, the padding, the ignored bits of a partial group, or any byte at or beyond ReqLen. -/
def Obligations.DecodeIgnoresUnusedBytes : Prop :=
  ∀ (s s' : State) (L : Layout), DecodeReady L s → s'.regs = s.regs → s'.params = s.params →
    (∀ r k, r < s.regs.height.toNat → k < rowBytes s.regs.width.toNat (some L) →
      (s'.readIn (s.regs.rowBase r + k)).toNat % 2 ^ usedBits L s.regs.width.toNat k
        = (s.readIn (s.regs.rowBase r + k)).toNat % 2 ^ usedBits L s.regs.width.toNat k) →
    ∃ t t', exec .decode s = .next t ∧ exec .decode s' = .next t' ∧ t'.regs = t.regs ∧
      ∀ i, i < s.regs.width.toNat * s.regs.height.toNat → t'.readPlane i = t.readPlane i

/-- R161. -/
def Obligations.AllZeroInputGivesZeroPlane : Prop :=
  ∀ (s : State) (L : Layout), DecodeReady L s →
    (∀ r k, r < s.regs.height.toNat → k < rowBytes s.regs.width.toNat (some L) → s.readIn (s.regs.rowBase r + k) = 0) →
    (∀ r c, r < s.regs.height.toNat → c < s.regs.width.toNat → s.rawSample L r c = 0) ∧
    ∃ t, exec .decode s = .next t ∧ t.regs.satf = false ∧
      ∀ i, i < s.regs.width.toNat * s.regs.height.toNat → t.readPlane i = 0

/-! ### SPLIT -/

/-- The two errors of SPLIT in their priority (R180, R237); it then changes only the flags. -/
def Obligations.SplitReportsFirstFailedCheck : Prop :=
  ∀ s : State,
    let fails := fun (code : BitVec 4) =>
      exec .split s = .next { s with
        pending := none
        regs := { s.regs with done := true, err := true, errcode := code, chV := false, rgbV := false } }
    (s.regs.planeV = false → fails 6) ∧ (s.regs.planeV = true → 4 ≤ s.regs.bayer.toNat → fails 3)

/-- R182, with the quadrants of R181 and the dimensions of R183: which quadrant goes to which channel memory under each order. -/
def Obligations.SplitSendsQuadrantsToRoles : Prop :=
  ∀ s : State, s.regs.planeV = true → s.regs.bayer.toNat < 4 →
    ∃ t, exec .split s = .next t ∧
      let w := s.regs.planeW.toNat / 2
      let h := s.regs.planeH.toNat / 2
      let quadrant := fun (role : Role) (a b : Nat) =>
        ∀ y x, y < h → x < w →
          t.readCh role (y * w + x) = s.readPlane ((2 * y + a) * s.regs.planeW.toNat + (2 * x + b))
      (s.regs.bayer.toNat = 0 → quadrant .gr 0 0 ∧ quadrant .r 0 1 ∧ quadrant .b 1 0 ∧ quadrant .gb 1 1) ∧
      (s.regs.bayer.toNat = 1 → quadrant .r 0 0 ∧ quadrant .gr 0 1 ∧ quadrant .gb 1 0 ∧ quadrant .b 1 1) ∧
      (s.regs.bayer.toNat = 2 → quadrant .b 0 0 ∧ quadrant .gb 0 1 ∧ quadrant .gr 1 0 ∧ quadrant .r 1 1) ∧
      (s.regs.bayer.toNat = 3 → quadrant .gb 0 0 ∧ quadrant .b 0 1 ∧ quadrant .r 1 0 ∧ quadrant .gr 1 1)

/-- A successful SPLIT changes the channel extents, CH_W, CH_H and the flags named, and nothing else (R180). -/
def Obligations.SplitCompletesAndKeepsTheRest : Prop :=
  ∀ s : State, s.regs.planeV = true → s.regs.bayer.toNat < 4 →
    ∃ t, exec .split s = .next t ∧
      t = { s with
        chR := t.chR, chGr := t.chGr, chGb := t.chGb, chB := t.chB
        pending := none
        regs := { s.regs with
          chW := t.regs.chW, chH := t.regs.chH, chV := true, rgbV := false, done := true, err := false, errcode := 0 } } ∧
      t.regs.chW.toNat = s.regs.planeW.toNat / 2 ∧ t.regs.chH.toNat = s.regs.planeH.toNat / 2 ∧
      ∀ role i, (s.regs.planeW.toNat / 2) * (s.regs.planeH.toNat / 2) ≤ i → t.readCh role i = s.readCh role i

/-- R184: two SPLITs of one plane under different orders give the same geometry and the same quadrants, under other names. -/
def Obligations.SplitGeometryIgnoresOrder : Prop :=
  ∀ (s s' : State) (o o' : BayerOrder), s.regs.planeV = true → bayerOrderOf s.regs.bayer = some o →
    bayerOrderOf s'.regs.bayer = some o' → s' = { s with regs := { s.regs with bayer := s'.regs.bayer } } →
    ∃ t t', exec .split s = .next t ∧ exec .split s' = .next t' ∧
      t.regs.chW.toNat = s.regs.planeW.toNat / 2 ∧ t.regs.chH.toNat = s.regs.planeH.toNat / 2 ∧
      t'.regs.chW = t.regs.chW ∧ t'.regs.chH = t.regs.chH ∧
      ∀ (a b : Bool) (i : Nat), i < t.regs.chW.toNat * t.regs.chH.toNat →
        t'.readCh (roleOf o' a b) i = t.readCh (roleOf o a b) i

/-- R185: SPLIT reads no plane element at or beyond PLANE_W * PLANE_H, and it writes only below w * h, which no channel memory exceeds. -/
def Obligations.SplitStaysInThePlane : Prop :=
  ∀ s s' : State, s.Inv → s' = { s with plane := s'.plane } →
    (∀ i, i < s.regs.planeW.toNat * s.regs.planeH.toNat → s'.readPlane i = s.readPlane i) →
    (s.regs.planeW.toNat / 2) * (s.regs.planeH.toNat / 2) ≤ s.params.nc ∧
    ∃ t t', exec .split s = .next t ∧ exec .split s' = .next t' ∧
      (∀ role i, t'.readCh role i = t.readCh role i) ∧ (∀ role, (t.ch role).below s.params.nc) ∧
      ∀ role i, (s.regs.planeW.toNat / 2) * (s.regs.planeH.toNat / 2) ≤ i → t.readCh role i = s.readCh role i

/-! ### RECON -/

/-- RECON with no valid channels (R195, R235): code 6, and only the flags change. -/
def Obligations.ReconNotReady : Prop :=
  ∀ s : State, s.regs.chV = false →
    exec .recon s = .next { s with
      pending := none
      regs := { s.regs with done := true, err := true, errcode := 6, rgbV := false } }

/-- R199: the three boundary modes. ZERO keeps the channel size and sets the last row and column to zero; CROP leaves them out, with the
pitch CH_W - 1 (R200); FULL computes every pixel. Every other pixel is that of R197. -/
def Obligations.ReconBoundaryModes : Prop :=
  ∀ s : State, s.regs.chV = true → ∃ t, exec .recon s = .next t ∧
    let w := s.regs.chW.toNat
    let h := s.regs.chH.toNat
    (s.regs.edge = .zero → t.regs.rgbW.toNat = w ∧ t.regs.rgbH.toNat = h ∧
      ∀ y x, y < h → x < w →
        if y + 1 = h ∨ x + 1 = w then t.readRgb (y * w + x) = { r := 0, g := 0, b := 0 }
        else PixelComputed s t (y * w + x) (y * w + x)) ∧
    (s.regs.edge = .crop → t.regs.rgbW.toNat = w - 1 ∧ t.regs.rgbH.toNat = h - 1 ∧
      ∀ y x, y < h - 1 → x < w - 1 → PixelComputed s t (y * (w - 1) + x) (y * w + x)) ∧
    (s.regs.edge = .full → t.regs.rgbW.toNat = w ∧ t.regs.rgbH.toNat = h ∧
      ∀ y x, y < h → x < w → PixelComputed s t (y * w + x) (y * w + x))

/-- A successful RECON writes RGB\[0 .. RGB_W*RGB_H-1\] only (R200), and changes nothing else but the registers named. -/
def Obligations.ReconCompletesAndKeepsTheRest : Prop :=
  ∀ s : State, s.regs.chV = true →
    ∃ t, exec .recon s = .next t ∧
      t = { s with
        rgb := t.rgb
        pending := none
        regs := { s.regs with
          rgbW := t.regs.rgbW, rgbH := t.regs.rgbH, rgbV := true, done := true, err := false, errcode := 0 } } ∧
      ∀ i, t.regs.rgbW.toNat * t.regs.rgbH.toNat ≤ i → t.readRgb i = s.readRgb i

/-- R203: at gain 1.0 the components of every computed pixel are the biased sums divided by 256, 512 and 256; with RND = 0, r is the
high byte of R. -/
def Obligations.GainOneTakesHighBytes : Prop :=
  ∀ s : State, s.regs.chV = true → s.regs.gainR = 0x1000 → s.regs.gainG = 0x1000 → s.regs.gainB = 0x1000 →
    ∃ t, exec .recon s = .next t ∧
      ∀ y x, y < t.regs.rgbH.toNat → x < t.regs.rgbW.toNat →
        ¬(s.regs.edge = .zero ∧ (y + 1 = s.regs.chH.toNat ∨ x + 1 = s.regs.chW.toNat)) →
        let i := y * s.regs.chW.toNat + x
        let j := y * t.regs.rgbW.toNat + x
        let bias := if s.regs.rnd then 128 else 0
        let biasG := if s.regs.rnd then 256 else 0
        (t.readRgb j).r.toNat = min 255 (((s.readCh .r i).toNat + bias) / 256) ∧
        (t.readRgb j).g.toNat = min 255 (((s.readCh .gr i).toNat + (s.readCh .gb i).toNat + biasG) / 512) ∧
        (t.readRgb j).b.toNat = min 255 (((s.readCh .b i).toNat + bias) / 256) ∧
        (s.regs.rnd = false → (t.readRgb j).r = (s.readCh .r i).extractLsb' 8 8)

/-! ### PIPE and the commands together -/

/-- R218: PIPE is DECODE, then SPLIT, then RECON, it stops at the first that fails, and inside it neither SPLIT nor RECON is ever
NotReady. -/
def Obligations.PipeIsItsStagesInOrder : Prop :=
  ∀ s : State, ∃ t₁, exec .decode s = .next t₁ ∧
    (t₁.regs.errcode ≠ 0 → exec .pipe s = .next t₁ ∧ t₁.regs.errcode ∈ [1, 2, 4]) ∧
    (t₁.regs.errcode = 0 → ∃ t₂, exec .split t₁ = .next t₂ ∧
      (t₂.regs.errcode ≠ 0 → exec .pipe s = .next t₂ ∧ t₂.regs.errcode = 3) ∧
      (t₂.regs.errcode = 0 → ∃ t₃, exec .recon t₂ = .next t₃ ∧ exec .pipe s = .next t₃ ∧ t₃.regs.errcode = 0))

/-- The outcomes of PIPE (R218): it succeeds with all three validity bits; it fails at SPLIT with the plane standing; it fails at DECODE
with none. NotReady never occurs. -/
def Obligations.PipeOutcomes : Prop :=
  ∀ s : State,
    (∀ L, DecodeReady L s → s.regs.bayer.toNat < 4 → ∃ t, exec .pipe s = .next t ∧ t.regs.errcode = 0 ∧
      t.regs.err = false ∧ t.regs.done = true ∧ t.pending = none ∧
      t.regs.planeV = true ∧ t.regs.chV = true ∧ t.regs.rgbV = true ∧
      t.regs.planeW = s.regs.width ∧ t.regs.planeH = s.regs.height ∧
      t.regs.chW.toNat = s.regs.width.toNat / 2 ∧ t.regs.chH.toNat = s.regs.height.toNat / 2) ∧
    (∀ L, DecodeReady L s → 4 ≤ s.regs.bayer.toNat → ∃ t, exec .pipe s = .next t ∧ t.regs.errcode = 3 ∧
      t.regs.planeV = true ∧ t.regs.chV = false ∧ t.regs.rgbV = false ∧
      t.regs.planeW = s.regs.width ∧ t.regs.planeH = s.regs.height ∧ t.rgb = s.rgb ∧ (∀ role, t.ch role = s.ch role)) ∧
    ((∀ L, ¬DecodeReady L s) → ∃ t, exec .pipe s = .next t ∧ t.regs.errcode ∈ [1, 2, 4] ∧
      t.regs.planeV = false ∧ t.regs.chV = false ∧ t.regs.rgbV = false)

/-- A successful PIPE changes the extents of the three stages, their geometry and the flags, and nothing else (R218). -/
def Obligations.PipeCompletesAndKeepsTheRest : Prop :=
  ∀ (s : State) (L : Layout), DecodeReady L s → s.regs.bayer.toNat < 4 →
    ∃ t, exec .pipe s = .next t ∧
      t = { s with
        plane := t.plane, chR := t.chR, chGr := t.chGr, chGb := t.chGb, chB := t.chB, rgb := t.rgb
        pending := none
        regs := { s.regs with
          planeW := s.regs.width, planeH := s.regs.height, chW := t.regs.chW, chH := t.regs.chH, rgbW := t.regs.rgbW,
          rgbH := t.regs.rgbH, satf := t.regs.satf, planeV := true, chV := true, rgbV := true, done := true, err := false,
          errcode := 0 } } ∧
      (∀ i, s.regs.width.toNat * s.regs.height.toNat ≤ i → t.readPlane i = s.readPlane i) ∧
      (∀ role i, (s.regs.width.toNat / 2) * (s.regs.height.toNat / 2) ≤ i → t.readCh role i = s.readCh role i) ∧
      (∀ i, t.regs.rgbW.toNat * t.regs.rgbH.toNat ≤ i → t.readRgb i = s.readRgb i)

/-- A command run again on the state it left gives that state again: the same code and the same outputs. No command reads what it
writes, and no condition is transient (R238). -/
def Obligations.CommandsAreRepeatable : Prop :=
  ∀ (i : Instr) (s t : State), exec i s = .next t → exec i t = .next t

/-- R236, for the commands of one stage (log 6 says why not for PIPE): an error changes no output element and no latched geometry. -/
def Obligations.FailedStageWritesNoOutput : Prop :=
  ∀ (i : Instr) (s : State), i ≠ .pipe → ∃ t, exec i s = .next t ∧
    (t.regs.errcode ≠ 0 → t.plane = s.plane ∧ (∀ role, t.ch role = s.ch role) ∧ t.rgb = s.rgb ∧
      t.regs.planeW = s.regs.planeW ∧ t.regs.planeH = s.regs.planeH ∧ t.regs.chW = s.regs.chW ∧ t.regs.chH = s.regs.chH ∧
      t.regs.rgbW = s.regs.rgbW ∧ t.regs.rgbH = s.regs.rgbH ∧ t.regs.err = true ∧ t.regs.done = true ∧ t.pending = none)

/-! ### The bus -/

/-- R215: any word is accepted while idle, and refused while busy. -/
def Obligations.AcceptanceOfACommand : Prop :=
  ∀ (s : State) (c : Word),
    (s.busy = false → busWrite (at_ 0x024) .word c s =
        ({ s with pending := some c, regs := { s.regs with done := false, err := false, satf := false, errcode := 0 } },
          .okay) ∧
      (readReg .status (busWrite (at_ 0x024) .word c s).1).getLsbD 0 = true) ∧
    (s.busy = true → busWrite (at_ 0x024) .word c s = (s, .slverr))

/-- R239, and R85 for reads: a transaction answered SLVERR changes no state and a read never does; refused read data is 0. -/
def Obligations.RefusedTransactionChangesNothing : Prop :=
  ∀ s : State,
    (∀ addr size d, (busWrite addr size d s).2 = .slverr → (transact (.write addr size d) s).1 = s) ∧
    (∀ addr size, (transact (.read addr size) s).1 = s) ∧
    (∀ addr size v, busRead addr size s = .read .slverr v → v = 0)

/-- R71, R72 and R73: with valid parameters, idle or busy, an access that is narrow, misaligned or at no implemented address gets SLVERR
and changes nothing, so a read gets OKAY only elsewhere; and there it does, while idle. -/
def Obligations.AddressMapAnswersWhatIsImplemented : Prop :=
  ∀ (s : State) (addr : Word) (size : AccessSize), s.params.WellFormed →
    let served := size = .word ∧ addr.toNat % 4 = 0 ∧ Implemented s.params addr.toNat
    (¬served → busRead addr size s = .read .slverr 0 ∧ ∀ d, busWrite addr size d s = (s, .slverr)) ∧
    (∀ v, busRead addr size s = .read .okay v → served) ∧
    (s.busy = false → served → ∃ v, busRead addr size s = .read .okay v)

/-- R74: a listed register reads its value, idle or busy; a write to an RO register gets SLVERR with no effect; a write to any other gets
OKAY while idle. The values are the hardwired ones (R23 to R25) and the stored fields (R28, R29, R31 to R39, R44 to R46), zero-extended;
STATUS and the derived registers have statements of their own. -/
def Obligations.RegisterAccesses : Prop :=
  (∀ (s : State) (r : Reg), busRead (at_ r.offset) .word s = .read .okay (readReg r s)) ∧
  (∀ s : State, readReg .ctrl s = 0 ∧ readReg .cmd s = 0 ∧ readReg .id s = 0x52415744 ∧ readReg .version s = 7) ∧
  (∀ s : State, s.params.WellFormed → (readReg .capMaxw s).toNat = s.params.maxW ∧ (readReg .capMaxh s).toNat = s.params.maxH ∧
    (readReg .capInsize s).toNat = s.params.inSize) ∧
  (∀ s : State,
    readReg .errcode s = s.regs.errcode.setWidth 32 ∧
    readReg .planeW s = s.regs.planeW.setWidth 32 ∧ readReg .planeH s = s.regs.planeH.setWidth 32 ∧
    readReg .chW s = s.regs.chW.setWidth 32 ∧ readReg .chH s = s.regs.chH.setWidth 32 ∧
    readReg .rgbW s = s.regs.rgbW.setWidth 32 ∧ readReg .rgbH s = s.regs.rgbH.setWidth 32) ∧
  (∀ s : State,
    readReg .descW s = s.regs.width.setWidth 32 ∧ readReg .descH s = s.regs.height.setWidth 32 ∧
    readReg .descHdr s = s.regs.header ∧ readReg .inLen s = s.regs.inLen ∧
    readReg .descLpad s = s.regs.lpad.setWidth 32 ∧ readReg .descRpad s = s.regs.rpad.setWidth 32 ∧
    readReg .gainR s = s.regs.gainR.setWidth 32 ∧ readReg .gainG s = s.regs.gainG.setWidth 32 ∧
    readReg .gainB s = s.regs.gainB.setWidth 32 ∧
    (readReg .irqEn s).toNat = s.regs.doneIe.toNat + 2 * s.regs.errIe.toNat ∧
    (readReg .descFmt s).toNat =
      s.regs.enc.toNat + 2 ^ 4 * s.regs.bppOvr.toNat + 2 ^ 12 * s.regs.bayer.toNat + 2 ^ 16 * s.regs.bigEndian.toNat ∧
    (readReg .reconCtrl s).toNat = s.regs.rnd.toNat + 2 * (match s.regs.edge with | .zero => 0 | .crop => 1 | .full => 2)) ∧
  (∀ (s : State) (d : Word) (r : Reg),
    (r ∈ readOnlyRegs → busWrite (at_ r.offset) .word d s = (s, .slverr)) ∧
    (r ∉ readOnlyRegs → s.busy = false → (busWrite (at_ r.offset) .word d s).2 = .okay))

/-- R51: reserved bits ignore writes and read 0, in every register that stores what is written. An accepted write to IRQ_EN, idle or busy
(R29, R80), or to a register of the descriptor (R31 to R36) stores its fields as written, and changes nothing else. -/
def Obligations.ReservedBitsReadZero : Prop :=
  (∀ (s : State) (d : Word), s.busy = false → ∀ rm ∈ plainRegs,
    ∃ s', busWrite (at_ rm.1.offset) .word d s = (s', .okay) ∧ readReg rm.1 s' = d &&& rm.2) ∧
  (∀ (s : State) (d : Word), busWrite (at_ 0x030) .word d s =
    ({ s with regs := { s.regs with doneIe := d.getLsbD 0, errIe := d.getLsbD 1 } }, .okay)) ∧
  (∀ (s : State) (d : Word), s.busy = false →
    busWrite (at_ 0x040) .word d s = ({ s with regs := { s.regs with width := d.extractLsb 15 0 } }, .okay) ∧
    busWrite (at_ 0x044) .word d s = ({ s with regs := { s.regs with height := d.extractLsb 15 0 } }, .okay) ∧
    busWrite (at_ 0x048) .word d s = ({ s with regs := { s.regs with
      enc := d.extractLsb 2 0, bppOvr := d.extractLsb 8 4, bayer := d.extractLsb 14 12, bigEndian := d.getLsbD 16 } }, .okay) ∧
    busWrite (at_ 0x04C) .word d s = ({ s with regs := { s.regs with header := d } }, .okay) ∧
    busWrite (at_ 0x050) .word d s = ({ s with regs := { s.regs with lpad := d.extractLsb 15 0 } }, .okay) ∧
    busWrite (at_ 0x054) .word d s = ({ s with regs := { s.regs with rpad := d.extractLsb 15 0 } }, .okay))

/-- R37: IN_LEN stores min(v, IN_SIZE). -/
def Obligations.InLenIsClamped : Prop :=
  (∀ (s : State) (v : Word), s.busy = false →
    ∃ s', busWrite (at_ 0x058) .word v s = (s', .okay) ∧ s' = { s with regs := { s.regs with inLen := s'.regs.inLen } } ∧
      s'.regs.inLen.toNat = min v.toNat s.params.inSize ∧ readReg .inLen s' = s'.regs.inLen) ∧
  (∀ p : Params, readReg .inLen (State.resetWith p) = 0)

/-- R39 and R49: RECON_CTRL takes RND, and EDGE unless it is 3; R49: an accepted write to it or to a gain clears RGB_V and leaves RGB as
it was. -/
def Obligations.ReconSettingsInvalidatePreview : Prop :=
  ∀ (s : State) (d : Word), s.busy = false →
    (∃ s', busWrite (at_ 0x06C) .word d s = (s', .okay) ∧
      s' = { s with regs := { s.regs with rgbV := false, rnd := d.getLsbD 0, edge := s'.regs.edge } } ∧
      s'.regs.edge = (match d.toNat / 2 % 4 with | 0 => .zero | 1 => .crop | 2 => .full | _ => s.regs.edge) ∧
      (readReg .reconCtrl s').toNat =
        d.toNat % 2 + 2 * (if d.toNat / 2 % 4 = 3 then (readReg .reconCtrl s).toNat / 2 else d.toNat / 2 % 4)) ∧
    (∃ s', busWrite (at_ 0x060) .word d s = (s', .okay) ∧
      s' = { s with regs := { s.regs with rgbV := false, gainR := s'.regs.gainR } } ∧ s'.regs.gainR.toNat = d.toNat % 65536) ∧
    (∃ s', busWrite (at_ 0x064) .word d s = (s', .okay) ∧
      s' = { s with regs := { s.regs with rgbV := false, gainG := s'.regs.gainG } } ∧ s'.regs.gainG.toNat = d.toNat % 65536) ∧
    (∃ s', busWrite (at_ 0x068) .word d s = (s', .okay) ∧
      s' = { s with regs := { s.regs with rgbV := false, gainB := s'.regs.gainB } } ∧ s'.regs.gainB.toNat = d.toNat % 65536)

/-- R27 and R240: what STATUS reads, bit by bit, and its write-1-to-clear, idle or busy. -/
def Obligations.StatusFieldsAndWriteOneToClear : Prop :=
  ∀ s : State,
    (readReg .status s).getLsbD 0 = s.busy ∧ (readReg .status s).getLsbD 1 = s.regs.done ∧
    (readReg .status s).getLsbD 2 = s.regs.err ∧ (readReg .status s).getLsbD 3 = s.regs.satf ∧
    (readReg .status s).getLsbD 4 = s.regs.planeV ∧ (readReg .status s).getLsbD 5 = s.regs.chV ∧
    (readReg .status s).getLsbD 6 = s.regs.rgbV ∧
    (readReg .status s).getLsbD 7 = (s.regs.done && s.regs.doneIe || s.regs.err && s.regs.errIe) ∧
    s.irq = (readReg .status s).getLsbD 7 ∧
    (∀ k, 8 ≤ k → (readReg .status s).getLsbD k = false) ∧
    ∀ d : Word, busWrite (at_ 0x028) .word d s =
      ({ s with regs := { s.regs with
          done := s.regs.done && !d.getLsbD 1, err := s.regs.err && !d.getLsbD 2, satf := s.regs.satf && !d.getLsbD 3 } },
        .okay)

/-- R241: irq after each of the writes that can lower it is what the remaining enabled sources make it; clearing an enable leaves the
STATUS bits as they were. -/
def Obligations.IrqFallsWhenAcknowledged : Prop :=
  ∀ (s : State) (d : Word),
    (busWrite (at_ 0x028) .word d s).1.irq =
      (s.regs.done && !d.getLsbD 1 && s.regs.doneIe || s.regs.err && !d.getLsbD 2 && s.regs.errIe) ∧
    (s.busy = false → (busWrite (at_ 0x024) .word d s).1.irq = false) ∧
    (busWrite (at_ 0x030) .word d s).1.irq = (s.regs.done && d.getLsbD 0 || s.regs.err && d.getLsbD 1) ∧
    (busWrite (at_ 0x030) .word d s).1.regs.done = s.regs.done ∧ (busWrite (at_ 0x030) .word d s).1.regs.err = s.regs.err

/-- R80: what is refused, and what is not, while a command is pending. -/
def Obligations.BusyBlockRefusesAccesses : Prop :=
  ∀ (s : State) (addr : Word) (size : AccessSize) (d : Word), s.busy = true →
    (0x10000000 ≤ addr.toNat → busRead addr size s = .read .slverr 0) ∧
    (addr ≠ at_ 0x020 → addr ≠ at_ 0x028 → addr ≠ at_ 0x030 → busWrite addr size d s = (s, .slverr)) ∧
    (∀ r : Reg, busRead (at_ r.offset) .word s = .read .okay (readReg r s)) ∧
    (∀ r ∈ [Reg.ctrl, Reg.status, Reg.irqEn], ∃ s', writeReg r d s = some s' ∧
      busWrite (at_ r.offset) .word d s = (s', .okay))

/-- R75: the lanes of the IN window are little-endian, for reads and for writes, and a write changes nothing else. -/
def Obligations.InWindowIsLittleEndian : Prop :=
  ∀ (s : State) (k : Nat), s.params.WellFormed → s.busy = false → k < s.params.inSize / 4 →
    (∃ v, busRead (BitVec.ofNat 32 (0x10000000 + 4 * k)) .word s = .read .okay v ∧
      ∀ i, i < 4 → (s.readIn (4 * k + i)).toNat = v.toNat / 256 ^ i % 256) ∧
    ∀ d : Word, ∃ s', busWrite (BitVec.ofNat 32 (0x10000000 + 4 * k)) .word d s = (s', .okay) ∧
      s' = { s with inMem := s'.inMem } ∧
      (∀ i, i < 4 → (s'.readIn (4 * k + i)).toNat = d.toNat / 256 ^ i % 256) ∧
      (∀ a, (a < 4 * k ∨ 4 * k + 4 ≤ a) → s'.readIn a = s.readIn a)

/-- R77, R78 and R79: how samples and pixels are packed into the words of the output windows, whose writes get SLVERR. -/
def Obligations.OutputWindowPacking : Prop :=
  ∀ (s : State) (k : Nat), s.params.WellFormed → s.busy = false →
    (k < (s.params.np + 1) / 2 →
      (∃ v, busRead (BitVec.ofNat 32 (0x20000000 + 4 * k)) .word s = .read .okay v ∧
        v.toNat = (s.readPlane (2 * k)).toNat
          + 65536 * (if 2 * k + 1 < s.params.np then (s.readPlane (2 * k + 1)).toNat else 0)) ∧
      ∀ d, busWrite (BitVec.ofNat 32 (0x20000000 + 4 * k)) .word d s = (s, .slverr)) ∧
    (k < (s.params.nc + 1) / 2 → ∀ rn ∈ [(Role.r, 3), (Role.gr, 4), (Role.gb, 5), (Role.b, 6)],
      (∃ v, busRead (BitVec.ofNat 32 (rn.2 * 0x10000000 + 4 * k)) .word s = .read .okay v ∧
        v.toNat = (s.readCh rn.1 (2 * k)).toNat
          + 65536 * (if 2 * k + 1 < s.params.nc then (s.readCh rn.1 (2 * k + 1)).toNat else 0)) ∧
      ∀ d, busWrite (BitVec.ofNat 32 (rn.2 * 0x10000000 + 4 * k)) .word d s = (s, .slverr)) ∧
    (k < s.params.nc →
      (∃ v, busRead (BitVec.ofNat 32 (0x70000000 + 4 * k)) .word s = .read .okay v ∧
        v.toNat = (s.readRgb k).r.toNat + 256 * (s.readRgb k).g.toNat + 65536 * (s.readRgb k).b.toNat) ∧
      ∀ d, busWrite (BitVec.ofNat 32 (0x70000000 + 4 * k)) .word d s = (s, .slverr))

/-! ### Reset -/

/-- R267, and the register values of R52: what the block shows after a hardware reset, for any parameters. -/
def Obligations.RegistersAfterReset : Prop :=
  ∀ p : Params, p.WellFormed →
    let s := State.resetWith p
    s.busy = false ∧ s.irq = false ∧
    readReg .id s = 0x52415744 ∧ readReg .version s = 7 ∧ (readReg .capMaxw s).toNat = p.maxW ∧
    (readReg .capMaxh s).toNat = p.maxH ∧ (readReg .capInsize s).toNat = p.inSize ∧
    readReg .descFmt s = 7 ∧ readReg .gainR s = 0x1000 ∧ readReg .gainG s = 0x1000 ∧ readReg .gainB s = 0x1000 ∧
    readReg .reconCtrl s = 1 ∧ readReg .deriv s = 0x710 ∧ readReg .descCheck s = 1 ∧
    (∀ r ∈ [Reg.ctrl, Reg.cmd, Reg.status, Reg.errcode, Reg.irqEn, Reg.descW, Reg.descH, Reg.descHdr, Reg.descLpad, Reg.descRpad,
      Reg.inLen, Reg.stride, Reg.reqLen, Reg.planeW, Reg.planeH, Reg.chW, Reg.chH, Reg.rgbW, Reg.rgbH], readReg r s = 0)

/-- R266: a soft reset, idle or busy. What the abandoned command's memories hold is the free value of a new draw (log 3). -/
def Obligations.SoftResetKeepsIn : Prop :=
  ∀ (s : State) (d : Word),
    (d.getLsbD 0 = false → busWrite (at_ 0x020) .word d s = (s, .okay)) ∧
    (d.getLsbD 0 = true → s.busy = false →
      busWrite (at_ 0x020) .word d s = ({ s with regs := Regs.reset, pending := none }, .okay)) ∧
    (d.getLsbD 0 = true → s.busy = true →
      ∃ s', busWrite (at_ 0x020) .word d s = (s', .okay) ∧ s'.regs = Regs.reset ∧ s'.pending = none ∧ s'.inMem = s.inMem ∧
        s'.params = s.params ∧ (∀ i, s'.readPlane i = Config.freeSample .plane s.draws i) ∧
        (∀ role i, s'.readCh role i = Config.freeSample (.ch role) s.draws i) ∧
        (∀ i, s'.readRgb i = Config.freePixel s.draws i))

/-- R265: a hardware reset abandons a pending command and leaves every memory unspecified: the free values of a new draw (log 3). -/
def Obligations.HardwareResetForgetsAll : Prop :=
  ∀ (s : State) (rest : List Input), s.inputs = .hardReset :: rest →
    ∃ t, step s = .next t ∧ t.regs = Regs.reset ∧ t.pending = none ∧ t.irq = false ∧ t.params = s.params ∧ t.inputs = rest ∧
      (∀ a, t.readIn a = Config.freeByte s.draws a) ∧ (∀ i, t.readPlane i = Config.freeSample .plane s.draws i) ∧
      (∀ role i, t.readCh role i = Config.freeSample (.ch role) s.draws i) ∧ (∀ i, t.readRgb i = Config.freePixel s.draws i)

/-! ### Whole-machine rules and invariants -/

/-- R48: a validity bit rises only by a command of its stage. -/
def Obligations.ValidityRisesOnlyByItsStage : Prop :=
  ∀ s : State, ∃ t, step s = .next t ∧
    (s.regs.planeV = false → t.regs.planeV = true → ∃ c, EngineRuns s c ∧ WritesPlane c ∧ t.regs.errcode ∈ [0, 3]) ∧
    (s.regs.chV = false → t.regs.chV = true → ∃ c, EngineRuns s c ∧ WritesChannels c ∧ t.regs.errcode = 0) ∧
    (s.regs.rgbV = false → t.regs.rgbV = true → ∃ c, EngineRuns s c ∧ WritesRgb c ∧ t.regs.errcode = 0)

/-- R50: a memory changes only by its writer or a reset: IN by the host, PLANE by DECODE, the channels by SPLIT, RGB by RECON, or PIPE for
any of the three. -/
def Obligations.MemoriesChangeOnlyByTheirWriter : Prop :=
  ∀ s : State, ∃ t, step s = .next t ∧
    (t.inMem ≠ s.inMem → ∃ rest, s.inputs = .hardReset :: rest ∨
      ∃ addr d, 0x10000000 ≤ addr.toNat ∧ addr.toNat < 0x20000000 ∧ s.inputs = .host (.write addr .word d) :: rest) ∧
    (t.plane ≠ s.plane → OutputsDrawn s ∨ ∃ c, EngineRuns s c ∧ WritesPlane c) ∧
    (∀ role, t.ch role ≠ s.ch role → OutputsDrawn s ∨ ∃ c, EngineRuns s c ∧ WritesChannels c) ∧
    (t.rgb ≠ s.rgb → OutputsDrawn s ∨ ∃ c, EngineRuns s c ∧ WritesRgb c)

/-- The two invariants below hold at reset, for every valid choice of the parameters. -/
def Obligations.InvariantsAtReset : Prop :=
  ∀ p : Params, p.WellFormed → (State.resetWith p).Inv ∧ (State.resetWith p).ResultsValid

/-- Every step keeps the invariant: canonical memories that hold only elements that exist, geometry that fits them, flags that fit
together. -/
def Obligations.StepKeepsInv : Prop := ∀ s t : State, s.Inv → step s = .next t → t.Inv

/-- Every step keeps what the validity bits mean (R27, R48, R49): CH_V says the channels are the split of the current plane, and RGB_V
says RGB is the preview of the current channels, gains and RECON_CTRL. -/
def Obligations.StepKeepsResultsValid : Prop := ∀ s t : State, s.ResultsValid → step s = .next t → t.ResultsValid

/-! ### The host's contract -/

/-- R113: the host's conversion is exact on every gain that U4.12 represents, and saturates above; it refuses a negative gain. -/
def Obligations.GainConversionIsExact : Prop :=
  (∀ G : BitVec 16, ∀ d : Nat, 0 < d → gainOfRational (G.toNat * d) (4096 * d) = some G) ∧
  (∀ (num : Int) (den : Nat), 0 < den → 16 * (den : Int) ≤ num → gainOfRational num den = some 65535) ∧
  (∀ (num : Int) (den : Nat), num < 0 → gainOfRational num den = none)
end

