-- ==== Sys2Proof/Laws/Memory.lean ====
section
/-! SUPPORT. What a read of a memory gives after a write, and that every memory operation keeps the canonical form, the bounds and the draw. -/

namespace Sys2Proof.Laws

open Sys2Proof.Machine

variable {α : Type}

/-! ### Cells -/

theorem findCell_setCell_same (i : Nat) (v : α) (l : List (Nat × α)) : findCell i (setCell i v l) = some v := by
  induction l with
  | nil => simp [setCell, findCell]
  | cons c rest ih =>
    simp only [setCell]
    split
    · simp [findCell]
    · split
      · simp [findCell]
      · rename_i h1 h2
        simp [findCell, ih, Ne.symm h2]

theorem findCell_setCell_other (i j : Nat) (v : α) (l : List (Nat × α)) (h : j ≠ i) :
    findCell j (setCell i v l) = findCell j l := by
  induction l with
  | nil => simp [setCell, findCell, Ne.symm h]
  | cons c rest ih =>
    simp only [setCell]
    split
    · simp [findCell, Ne.symm h]
    · split
      · rename_i h1 h2
        subst h2
        simp [findCell, Ne.symm h]
      · simp [findCell, ih]

theorem mem_setCell (i : Nat) (v : α) (l : List (Nat × α)) (c : Nat × α) (h : c ∈ setCell i v l) : c = (i, v) ∨ c ∈ l := by
  induction l with
  | nil => simpa [setCell] using h
  | cons d rest ih =>
    simp only [setCell] at h
    split at h
    · simpa using h
    · split at h
      · simp only [List.mem_cons] at h ⊢
        tauto
      · simp only [List.mem_cons] at h ⊢
        rcases h with h | h
        · exact .inr (.inl h)
        · exact (ih h).imp_right .inr

theorem pairwise_setCell (i : Nat) (v : α) (l : List (Nat × α)) (h : l.Pairwise (fun a b => a.1 < b.1)) :
    (setCell i v l).Pairwise (fun a b => a.1 < b.1) := by
  induction l with
  | nil => simp [setCell]
  | cons d rest ih =>
    have hr := List.pairwise_cons.mp h
    simp only [setCell]
    split
    · rename_i hlt
      refine List.pairwise_cons.mpr ⟨fun c hc => ?_, h⟩
      rcases List.mem_cons.mp hc with rfl | hc
      · exact hlt
      · exact lt_trans hlt (hr.1 c hc)
    · split
      · rename_i heq
        subst heq
        exact List.pairwise_cons.mpr ⟨hr.1, hr.2⟩
      · rename_i h1 h2
        refine List.pairwise_cons.mpr ⟨fun c hc => ?_, ih hr.2⟩
        rcases mem_setCell i v rest c hc with rfl | hc
        · simp only
          omega
        · exact hr.1 c hc

theorem findCell_append (i : Nat) (l₁ l₂ : List (Nat × α)) :
    findCell i (l₁ ++ l₂) = (findCell i l₁).or (findCell i l₂) := by
  induction l₁ with
  | nil => simp [findCell]
  | cons c rest ih =>
    simp only [List.cons_append, findCell]
    split
    · simp
    · exact ih

theorem findCell_eq_none (i : Nat) (l : List (Nat × α)) (h : ∀ c ∈ l, c.1 ≠ i) : findCell i l = none := by
  induction l with
  | nil => rfl
  | cons c rest ih =>
    simp only [findCell, h c (by simp), if_false]
    exact ih (fun d hd => h d (by simp [hd]))

theorem findCell_map_of_mem (i : Nat) (value : Nat → α) (l : List Nat) (h : i ∈ l) :
    findCell i (l.map (fun j => (j, value j))) = some (value i) := by
  induction l with
  | nil => simp at h
  | cons a rest ih =>
    simp only [List.map_cons, findCell]
    split
    · rename_i h1
      rw [h1]
    · rename_i h1
      exact ih ((List.mem_cons.mp h).resolve_left (fun e => h1 e.symm))

theorem findCell_filter_ge (i n : Nat) (l : List (Nat × α)) (h : n ≤ i) :
    findCell i (l.filter (fun c => decide (n ≤ c.1))) = findCell i l := by
  induction l with
  | nil => rfl
  | cons c rest ih =>
    by_cases hc : n ≤ c.1
    · simp [hc, findCell, ih]
    · have hne : c.1 ≠ i := by omega
      simp [hc, findCell, ih, hne]

/-! ### Memories -/

@[simp] theorem gen_write (m : Memory α) (i : Nat) (v : α) : (m.write i v).gen = m.gen := rfl

@[simp] theorem gen_overwrite (m : Memory α) (n : Nat) (value : Nat → α) : (m.overwrite n value).gen = m.gen := rfl

@[simp] theorem gen_fresh (g : Nat) : (Memory.fresh g : Memory α).gen = g := rfl

/-- A read of a memory just drawn is the free value of that draw. -/
@[simp] theorem read_fresh (g : Nat) (free : Nat → Nat → α) (i : Nat) : (Memory.fresh g : Memory α).read free i = free g i := rfl

@[simp] theorem read_write_same (m : Memory α) (free : Nat → Nat → α) (i : Nat) (v : α) : (m.write i v).read free i = v := by
  simp [Memory.read, Memory.write, findCell_setCell_same]

theorem read_write_other (m : Memory α) (free : Nat → Nat → α) (i j : Nat) (v : α) (h : j ≠ i) :
    (m.write i v).read free j = m.read free j := by
  simp [Memory.read, Memory.write, findCell_setCell_other i j v m.cells h]

/-- An element of the extent reads as written. -/
theorem read_overwrite_inside (m : Memory α) (free : Nat → Nat → α) (n : Nat) (value : Nat → α) (i : Nat) (h : i < n) :
    (m.overwrite n value).read free i = value i := by
  simp [Memory.read, Memory.overwrite, findCell_append, findCell_map_of_mem i value _ (List.mem_range.mpr h)]

/-- An element beyond the extent keeps its value. -/
theorem read_overwrite_outside (m : Memory α) (free : Nat → Nat → α) (n : Nat) (value : Nat → α) (i : Nat) (h : n ≤ i) :
    (m.overwrite n value).read free i = m.read free i := by
  have hnone : findCell i ((List.range n).map (fun j => (j, value j))) = none := by
    refine findCell_eq_none _ _ (fun c hc => ?_)
    obtain ⟨j, hj, rfl⟩ := List.mem_map.mp hc
    have := List.mem_range.mp hj
    simp only
    omega
  simp [Memory.read, Memory.overwrite, findCell_append, hnone, findCell_filter_ge i n m.cells h]

/-- Writing one extent twice with the same values is writing it once. -/
theorem overwrite_overwrite (m : Memory α) (n : Nat) (value : Nat → α) :
    (m.overwrite n value).overwrite n value = m.overwrite n value := by
  have hnone : ((List.range n).map (fun i => (i, value i))).filter (fun c => decide (n ≤ c.1)) = [] := by
    rw [List.filter_eq_nil_iff]
    intro c hc
    obtain ⟨j, hj, rfl⟩ := List.mem_map.mp hc
    have := List.mem_range.mp hj
    simp only [decide_eq_true_eq]
    omega
  simp [Memory.overwrite, List.filter_append, hnone, List.filter_filter]

theorem wf_fresh (g : Nat) : (Memory.fresh g : Memory α).wf := List.Pairwise.nil

theorem wf_write (m : Memory α) (i : Nat) (v : α) (h : m.wf) : (m.write i v).wf := pairwise_setCell i v m.cells h

theorem wf_overwrite (m : Memory α) (n : Nat) (value : Nat → α) (h : m.wf) : (m.overwrite n value).wf := by
  refine List.pairwise_append.mpr ⟨?_, h.filter _, fun a ha b hb => ?_⟩
  · exact List.pairwise_map.mpr List.pairwise_lt_range
  · obtain ⟨j, hj, rfl⟩ := List.mem_map.mp ha
    have h1 := List.mem_range.mp hj
    have h2 := of_decide_eq_true (List.mem_filter.mp hb).2
    simp only
    omega

theorem below_fresh (n g : Nat) : (Memory.fresh g : Memory α).below n := by simp [Memory.fresh]

theorem below_write (n : Nat) (m : Memory α) (i : Nat) (v : α) (hi : i < n) (h : m.below n) : (m.write i v).below n := by
  intro c hc
  rcases mem_setCell i v m.cells c hc with rfl | hc
  · exact hi
  · exact h c hc

theorem below_overwrite (n : Nat) (m : Memory α) (k : Nat) (value : Nat → α) (hk : k ≤ n) (h : m.below n) :
    (m.overwrite k value).below n := by
  intro c hc
  rcases List.mem_append.mp hc with hc | hc
  · obtain ⟨j, hj, rfl⟩ := List.mem_map.mp hc
    have := List.mem_range.mp hj
    simp only
    omega
  · exact h c (List.mem_of_mem_filter hc)

end Sys2Proof.Laws
end

