-- ==== Sys2Proof/Laws/State.lean ====
section
/-! SUPPORT. One lemma per field of State for each shared update of it, so that no later proof unfolds a record update. -/

namespace Sys2Proof.Laws

open Sys2Proof.Machine

/-! ### complete -/

@[simp] theorem complete_params (e : Option Err) (s : State) : (complete e s).params = s.params := rfl
@[simp] theorem complete_regs (e : Option Err) (s : State) : (complete e s).regs = s.regs.completeFlags e := rfl
@[simp] theorem complete_pending (e : Option Err) (s : State) : (complete e s).pending = none := rfl
@[simp] theorem complete_inMem (e : Option Err) (s : State) : (complete e s).inMem = s.inMem := rfl
@[simp] theorem complete_plane (e : Option Err) (s : State) : (complete e s).plane = s.plane := rfl
@[simp] theorem complete_chR (e : Option Err) (s : State) : (complete e s).chR = s.chR := rfl
@[simp] theorem complete_chGr (e : Option Err) (s : State) : (complete e s).chGr = s.chGr := rfl
@[simp] theorem complete_chGb (e : Option Err) (s : State) : (complete e s).chGb = s.chGb := rfl
@[simp] theorem complete_chB (e : Option Err) (s : State) : (complete e s).chB = s.chB := rfl
@[simp] theorem complete_rgb (e : Option Err) (s : State) : (complete e s).rgb = s.rgb := rfl
@[simp] theorem complete_draws (e : Option Err) (s : State) : (complete e s).draws = s.draws := rfl
@[simp] theorem complete_inputs (e : Option Err) (s : State) : (complete e s).inputs = s.inputs := rfl
@[simp] theorem complete_replies (e : Option Err) (s : State) : (complete e s).replies = s.replies := rfl

/-! ### accept -/

@[simp] theorem accept_params (c : Word) (s : State) : (accept c s).params = s.params := rfl
@[simp] theorem accept_regs (c : Word) (s : State) : (accept c s).regs = s.regs.acceptFlags := rfl
@[simp] theorem accept_pending (c : Word) (s : State) : (accept c s).pending = some c := rfl
@[simp] theorem accept_inMem (c : Word) (s : State) : (accept c s).inMem = s.inMem := rfl
@[simp] theorem accept_plane (c : Word) (s : State) : (accept c s).plane = s.plane := rfl
@[simp] theorem accept_chR (c : Word) (s : State) : (accept c s).chR = s.chR := rfl
@[simp] theorem accept_chGr (c : Word) (s : State) : (accept c s).chGr = s.chGr := rfl
@[simp] theorem accept_chGb (c : Word) (s : State) : (accept c s).chGb = s.chGb := rfl
@[simp] theorem accept_chB (c : Word) (s : State) : (accept c s).chB = s.chB := rfl
@[simp] theorem accept_rgb (c : Word) (s : State) : (accept c s).rgb = s.rgb := rfl
@[simp] theorem accept_draws (c : Word) (s : State) : (accept c s).draws = s.draws := rfl
@[simp] theorem accept_inputs (c : Word) (s : State) : (accept c s).inputs = s.inputs := rfl
@[simp] theorem accept_replies (c : Word) (s : State) : (accept c s).replies = s.replies := rfl

/-! ### drawOutputs -/

@[simp] theorem drawOutputs_params (s : State) : (s.drawOutputs).params = s.params := rfl
@[simp] theorem drawOutputs_regs (s : State) : (s.drawOutputs).regs = s.regs := rfl
@[simp] theorem drawOutputs_pending (s : State) : (s.drawOutputs).pending = s.pending := rfl
@[simp] theorem drawOutputs_inMem (s : State) : (s.drawOutputs).inMem = s.inMem := rfl
@[simp] theorem drawOutputs_plane (s : State) : (s.drawOutputs).plane = Memory.fresh s.draws := rfl
@[simp] theorem drawOutputs_chR (s : State) : (s.drawOutputs).chR = Memory.fresh s.draws := rfl
@[simp] theorem drawOutputs_chGr (s : State) : (s.drawOutputs).chGr = Memory.fresh s.draws := rfl
@[simp] theorem drawOutputs_chGb (s : State) : (s.drawOutputs).chGb = Memory.fresh s.draws := rfl
@[simp] theorem drawOutputs_chB (s : State) : (s.drawOutputs).chB = Memory.fresh s.draws := rfl
@[simp] theorem drawOutputs_rgb (s : State) : (s.drawOutputs).rgb = Memory.fresh s.draws := rfl
@[simp] theorem drawOutputs_draws (s : State) : (s.drawOutputs).draws = s.draws + 1 := rfl
@[simp] theorem drawOutputs_inputs (s : State) : (s.drawOutputs).inputs = s.inputs := rfl
@[simp] theorem drawOutputs_replies (s : State) : (s.drawOutputs).replies = s.replies := rfl

/-! ### resetRegs -/

@[simp] theorem resetRegs_params (s : State) : (s.resetRegs).params = s.params := rfl
@[simp] theorem resetRegs_regs (s : State) : (s.resetRegs).regs = Regs.reset := rfl
@[simp] theorem resetRegs_pending (s : State) : (s.resetRegs).pending = none := rfl
@[simp] theorem resetRegs_inMem (s : State) : (s.resetRegs).inMem = s.inMem := rfl
@[simp] theorem resetRegs_plane (s : State) : (s.resetRegs).plane = s.plane := rfl
@[simp] theorem resetRegs_chR (s : State) : (s.resetRegs).chR = s.chR := rfl
@[simp] theorem resetRegs_chGr (s : State) : (s.resetRegs).chGr = s.chGr := rfl
@[simp] theorem resetRegs_chGb (s : State) : (s.resetRegs).chGb = s.chGb := rfl
@[simp] theorem resetRegs_chB (s : State) : (s.resetRegs).chB = s.chB := rfl
@[simp] theorem resetRegs_rgb (s : State) : (s.resetRegs).rgb = s.rgb := rfl
@[simp] theorem resetRegs_draws (s : State) : (s.resetRegs).draws = s.draws := rfl
@[simp] theorem resetRegs_inputs (s : State) : (s.resetRegs).inputs = s.inputs := rfl
@[simp] theorem resetRegs_replies (s : State) : (s.resetRegs).replies = s.replies := rfl

/-! ### hardReset -/

@[simp] theorem hardReset_params (s : State) : (hardReset s).params = s.params := rfl
@[simp] theorem hardReset_regs (s : State) : (hardReset s).regs = Regs.reset := rfl
@[simp] theorem hardReset_pending (s : State) : (hardReset s).pending = none := rfl
@[simp] theorem hardReset_inMem (s : State) : (hardReset s).inMem = Memory.fresh s.draws := rfl
@[simp] theorem hardReset_plane (s : State) : (hardReset s).plane = Memory.fresh s.draws := rfl
@[simp] theorem hardReset_chR (s : State) : (hardReset s).chR = Memory.fresh s.draws := rfl
@[simp] theorem hardReset_chGr (s : State) : (hardReset s).chGr = Memory.fresh s.draws := rfl
@[simp] theorem hardReset_chGb (s : State) : (hardReset s).chGb = Memory.fresh s.draws := rfl
@[simp] theorem hardReset_chB (s : State) : (hardReset s).chB = Memory.fresh s.draws := rfl
@[simp] theorem hardReset_rgb (s : State) : (hardReset s).rgb = Memory.fresh s.draws := rfl
@[simp] theorem hardReset_draws (s : State) : (hardReset s).draws = s.draws + 1 := rfl
@[simp] theorem hardReset_inputs (s : State) : (hardReset s).inputs = s.inputs := rfl
@[simp] theorem hardReset_replies (s : State) : (hardReset s).replies = s.replies := rfl

/-! ### softReset -/

@[simp] theorem softReset_params (s : State) : (softReset s).params = s.params := by
  unfold softReset; split <;> rfl
@[simp] theorem softReset_regs (s : State) : (softReset s).regs = Regs.reset := by
  unfold softReset; split <;> rfl
@[simp] theorem softReset_pending (s : State) : (softReset s).pending = none := by
  unfold softReset; split <;> rfl
@[simp] theorem softReset_inMem (s : State) : (softReset s).inMem = s.inMem := by
  unfold softReset; split <;> rfl
@[simp] theorem softReset_inputs (s : State) : (softReset s).inputs = s.inputs := by
  unfold softReset; split <;> rfl
@[simp] theorem softReset_replies (s : State) : (softReset s).replies = s.replies := by
  unfold softReset; split <;> rfl

/-! ### setCh -/

@[simp] theorem setCh_params (role : Role) (m : Memory Sample) (s : State) : (s.setCh role m).params = s.params := by cases role <;> rfl
@[simp] theorem setCh_regs (role : Role) (m : Memory Sample) (s : State) : (s.setCh role m).regs = s.regs := by cases role <;> rfl
@[simp] theorem setCh_pending (role : Role) (m : Memory Sample) (s : State) : (s.setCh role m).pending = s.pending := by cases role <;> rfl
@[simp] theorem setCh_inMem (role : Role) (m : Memory Sample) (s : State) : (s.setCh role m).inMem = s.inMem := by cases role <;> rfl
@[simp] theorem setCh_plane (role : Role) (m : Memory Sample) (s : State) : (s.setCh role m).plane = s.plane := by cases role <;> rfl
@[simp] theorem setCh_rgb (role : Role) (m : Memory Sample) (s : State) : (s.setCh role m).rgb = s.rgb := by cases role <;> rfl
@[simp] theorem setCh_draws (role : Role) (m : Memory Sample) (s : State) : (s.setCh role m).draws = s.draws := by cases role <;> rfl
@[simp] theorem setCh_inputs (role : Role) (m : Memory Sample) (s : State) : (s.setCh role m).inputs = s.inputs := by cases role <;> rfl
@[simp] theorem setCh_replies (role : Role) (m : Memory Sample) (s : State) : (s.setCh role m).replies = s.replies := by cases role <;> rfl

/-- The channel memory just replaced. -/
@[simp] theorem ch_setCh_same (role : Role) (m : Memory Sample) (s : State) : (s.setCh role m).ch role = m := by
  cases role <;> rfl

/-- The other channel memories. -/
theorem ch_setCh_other (role other : Role) (m : Memory Sample) (s : State) (h : other ≠ role) :
    (s.setCh role m).ch other = s.ch other := by
  cases role <;> cases other <;> first | rfl | exact absurd rfl h

/-! ### writeInWord -/

@[simp] theorem writeInWord_params (k : Nat) (d : Word) (s : State) : (writeInWord k d s).params = s.params := rfl
@[simp] theorem writeInWord_regs (k : Nat) (d : Word) (s : State) : (writeInWord k d s).regs = s.regs := rfl
@[simp] theorem writeInWord_pending (k : Nat) (d : Word) (s : State) : (writeInWord k d s).pending = s.pending := rfl
@[simp] theorem writeInWord_plane (k : Nat) (d : Word) (s : State) : (writeInWord k d s).plane = s.plane := rfl
@[simp] theorem writeInWord_chR (k : Nat) (d : Word) (s : State) : (writeInWord k d s).chR = s.chR := rfl
@[simp] theorem writeInWord_chGr (k : Nat) (d : Word) (s : State) : (writeInWord k d s).chGr = s.chGr := rfl
@[simp] theorem writeInWord_chGb (k : Nat) (d : Word) (s : State) : (writeInWord k d s).chGb = s.chGb := rfl
@[simp] theorem writeInWord_chB (k : Nat) (d : Word) (s : State) : (writeInWord k d s).chB = s.chB := rfl
@[simp] theorem writeInWord_rgb (k : Nat) (d : Word) (s : State) : (writeInWord k d s).rgb = s.rgb := rfl
@[simp] theorem writeInWord_draws (k : Nat) (d : Word) (s : State) : (writeInWord k d s).draws = s.draws := rfl
@[simp] theorem writeInWord_inputs (k : Nat) (d : Word) (s : State) : (writeInWord k d s).inputs = s.inputs := rfl
@[simp] theorem writeInWord_replies (k : Nat) (d : Word) (s : State) : (writeInWord k d s).replies = s.replies := rfl

/-! ### decodePlane -/

@[simp] theorem decodePlane_params (L : Layout) (s : State) : (decodePlane L s).params = s.params := rfl
@[simp] theorem decodePlane_pending (L : Layout) (s : State) : (decodePlane L s).pending = s.pending := rfl
@[simp] theorem decodePlane_inMem (L : Layout) (s : State) : (decodePlane L s).inMem = s.inMem := rfl
@[simp] theorem decodePlane_plane (L : Layout) (s : State) : (decodePlane L s).plane = s.plane.overwrite (s.regs.width.toNat * s.regs.height.toNat) (fun i => (s.planeSample L i).1) := rfl
@[simp] theorem decodePlane_chR (L : Layout) (s : State) : (decodePlane L s).chR = s.chR := rfl
@[simp] theorem decodePlane_chGr (L : Layout) (s : State) : (decodePlane L s).chGr = s.chGr := rfl
@[simp] theorem decodePlane_chGb (L : Layout) (s : State) : (decodePlane L s).chGb = s.chGb := rfl
@[simp] theorem decodePlane_chB (L : Layout) (s : State) : (decodePlane L s).chB = s.chB := rfl
@[simp] theorem decodePlane_rgb (L : Layout) (s : State) : (decodePlane L s).rgb = s.rgb := rfl
@[simp] theorem decodePlane_draws (L : Layout) (s : State) : (decodePlane L s).draws = s.draws := rfl
@[simp] theorem decodePlane_inputs (L : Layout) (s : State) : (decodePlane L s).inputs = s.inputs := rfl
@[simp] theorem decodePlane_replies (L : Layout) (s : State) : (decodePlane L s).replies = s.replies := rfl

/-! ### reconPreview -/

@[simp] theorem reconPreview_params (s : State) : (reconPreview s).params = s.params := rfl
@[simp] theorem reconPreview_pending (s : State) : (reconPreview s).pending = s.pending := rfl
@[simp] theorem reconPreview_inMem (s : State) : (reconPreview s).inMem = s.inMem := rfl
@[simp] theorem reconPreview_plane (s : State) : (reconPreview s).plane = s.plane := rfl
@[simp] theorem reconPreview_chR (s : State) : (reconPreview s).chR = s.chR := rfl
@[simp] theorem reconPreview_chGr (s : State) : (reconPreview s).chGr = s.chGr := rfl
@[simp] theorem reconPreview_chGb (s : State) : (reconPreview s).chGb = s.chGb := rfl
@[simp] theorem reconPreview_chB (s : State) : (reconPreview s).chB = s.chB := rfl
@[simp] theorem reconPreview_draws (s : State) : (reconPreview s).draws = s.draws := rfl
@[simp] theorem reconPreview_inputs (s : State) : (reconPreview s).inputs = s.inputs := rfl
@[simp] theorem reconPreview_replies (s : State) : (reconPreview s).replies = s.replies := rfl

/-! ### writeQuadrant -/

@[simp] theorem writeQuadrant_params (o : BayerOrder) (w h : Nat) (a b : Bool) (s : State) : (writeQuadrant o w h a b s).params = s.params := by simp [writeQuadrant]
@[simp] theorem writeQuadrant_regs (o : BayerOrder) (w h : Nat) (a b : Bool) (s : State) : (writeQuadrant o w h a b s).regs = s.regs := by simp [writeQuadrant]
@[simp] theorem writeQuadrant_pending (o : BayerOrder) (w h : Nat) (a b : Bool) (s : State) : (writeQuadrant o w h a b s).pending = s.pending := by simp [writeQuadrant]
@[simp] theorem writeQuadrant_inMem (o : BayerOrder) (w h : Nat) (a b : Bool) (s : State) : (writeQuadrant o w h a b s).inMem = s.inMem := by simp [writeQuadrant]
@[simp] theorem writeQuadrant_plane (o : BayerOrder) (w h : Nat) (a b : Bool) (s : State) : (writeQuadrant o w h a b s).plane = s.plane := by simp [writeQuadrant]
@[simp] theorem writeQuadrant_rgb (o : BayerOrder) (w h : Nat) (a b : Bool) (s : State) : (writeQuadrant o w h a b s).rgb = s.rgb := by simp [writeQuadrant]
@[simp] theorem writeQuadrant_draws (o : BayerOrder) (w h : Nat) (a b : Bool) (s : State) : (writeQuadrant o w h a b s).draws = s.draws := by simp [writeQuadrant]
@[simp] theorem writeQuadrant_inputs (o : BayerOrder) (w h : Nat) (a b : Bool) (s : State) : (writeQuadrant o w h a b s).inputs = s.inputs := by simp [writeQuadrant]
@[simp] theorem writeQuadrant_replies (o : BayerOrder) (w h : Nat) (a b : Bool) (s : State) : (writeQuadrant o w h a b s).replies = s.replies := by simp [writeQuadrant]

/-! ### splitChannels -/

@[simp] theorem splitChannels_params (o : BayerOrder) (s : State) : (splitChannels o s).params = s.params := by simp [splitChannels]
@[simp] theorem splitChannels_pending (o : BayerOrder) (s : State) : (splitChannels o s).pending = s.pending := by simp [splitChannels]
@[simp] theorem splitChannels_inMem (o : BayerOrder) (s : State) : (splitChannels o s).inMem = s.inMem := by simp [splitChannels]
@[simp] theorem splitChannels_plane (o : BayerOrder) (s : State) : (splitChannels o s).plane = s.plane := by simp [splitChannels]
@[simp] theorem splitChannels_rgb (o : BayerOrder) (s : State) : (splitChannels o s).rgb = s.rgb := by simp [splitChannels]
@[simp] theorem splitChannels_draws (o : BayerOrder) (s : State) : (splitChannels o s).draws = s.draws := by simp [splitChannels]
@[simp] theorem splitChannels_inputs (o : BayerOrder) (s : State) : (splitChannels o s).inputs = s.inputs := by simp [splitChannels]
@[simp] theorem splitChannels_replies (o : BayerOrder) (s : State) : (splitChannels o s).replies = s.replies := by simp [splitChannels]

end Sys2Proof.Laws
end

