-- ==== Sys2Proof/Laws/Unpack.lean ====
section
/-! SUPPORT. The unpackers and the rescale in plain arithmetic (R152 to R156). -/

namespace Sys2Proof.Laws

open Sys2Proof.Machine

/-! ### Bit operations as arithmetic -/

theorem shift_or (a b k : Nat) (hb : b < 2 ^ k) : (a <<< k) ||| b = 2 ^ k * a + b := by
  rw [Nat.shiftLeft_eq, Nat.mul_comm, Nat.two_pow_add_eq_or_of_lt hb]

theorem shift_or_low2 (a n : Nat) : (a <<< 2) ||| (n &&& 3) = 4 * a + n % 4 := by
  rw [show n &&& 3 = n % 4 from Nat.and_two_pow_sub_one_eq_mod n 2]
  exact shift_or a _ 2 (Nat.mod_lt _ (by decide))

theorem shift_or_low4 (a n : Nat) : (a <<< 4) ||| (n &&& 15) = 16 * a + n % 16 := by
  rw [show n &&& 15 = n % 16 from Nat.and_two_pow_sub_one_eq_mod n 4]
  exact shift_or a _ 4 (Nat.mod_lt _ (by decide))

theorem shift_or_byte (a : Nat) (b : Byte) : (a <<< 8) ||| b.toNat = 256 * a + b.toNat := shift_or a _ 8 b.isLt

/-! ### The unpackers -/

/-- The width in bits of a layout's own samples (R163). -/
def layoutBits : Layout → Nat
  | .raw8 => 8
  | .raw10 => 10
  | .raw12 => 12
  | .raw16 => 16

/-- R153 in arithmetic. -/
theorem unpackRaw10_eq (byteAt : Nat → Byte) (base width c : Nat) :
    unpackRaw10 byteAt base width c =
      4 * (byteAt (base + 5 * (c / 4) + c % 4)).toNat
        + (byteAt (base + 5 * (c / 4) + min 4 (width - 4 * (c / 4)))).toNat / 4 ^ (c % 4) % 4 := by
  simp only [unpackRaw10, shift_or_low2, Nat.shiftRight_eq_div_pow, Nat.pow_mul]

/-- R154 in arithmetic. -/
theorem unpackRaw12_eq (byteAt : Nat → Byte) (base width c : Nat) :
    unpackRaw12 byteAt base width c =
      16 * (byteAt (base + 3 * (c / 2) + c % 2)).toNat
        + (byteAt (base + 3 * (c / 2) + min 2 (width - 2 * (c / 2)))).toNat / 16 ^ (c % 2) % 16 := by
  simp only [unpackRaw12, shift_or_low4, Nat.shiftRight_eq_div_pow, Nat.pow_mul]

/-- R155 in arithmetic. -/
theorem unpackRaw16_eq (byteAt : Nat → Byte) (bigEndian : Bool) (base c : Nat) :
    unpackRaw16 byteAt bigEndian base c =
      if bigEndian then 256 * (byteAt (base + 2 * c)).toNat + (byteAt (base + 2 * c + 1)).toNat
      else 256 * (byteAt (base + 2 * c + 1)).toNat + (byteAt (base + 2 * c)).toNat := by
  simp only [unpackRaw16, shift_or_byte]

/-- A raw sample is below 2^bits of its layout. -/
theorem unpack_lt (L : Layout) (byteAt : Nat → Byte) (g : Regs) (base c : Nat) :
    unpack L byteAt g base c < 2 ^ layoutBits L := by
  cases L with
  | raw8 => exact (byteAt (base + c)).isLt
  | raw10 =>
    have := (byteAt (base + 5 * (c / 4) + c % 4)).isLt
    simp only [unpack, unpackRaw10_eq, layoutBits]
    omega
  | raw12 =>
    have := (byteAt (base + 3 * (c / 2) + c % 2)).isLt
    simp only [unpack, unpackRaw12_eq, layoutBits]
    omega
  | raw16 =>
    have := (byteAt (base + 2 * c)).isLt
    have := (byteAt (base + 2 * c + 1)).isLt
    simp only [unpack, unpackRaw16_eq, layoutBits]
    split <;> omega

/-! ### The rescale -/

theorem scale_fst (raw bpp : Nat) : (scale raw bpp).1.toNat = min (scaleQuotient raw bpp) 65535 := by
  simp only [scale, BitVec.toNat_ofNat]
  generalize scaleQuotient raw bpp = q
  omega

theorem scale_snd (raw bpp : Nat) : (scale raw bpp).2 = true ↔ 65535 < scaleQuotient raw bpp := by
  simp [scale]

theorem scaleQuotient_eq (raw bpp : Nat) :
    scaleQuotient raw bpp = (2 * raw * 65535 + (2 ^ bpp - 1)) / (2 * (2 ^ bpp - 1)) := rfl

/-- A sample saturates exactly when its raw value exceeds 2^bpp - 1 (R157). -/
theorem scale_overflow_iff (raw bpp : Nat) (h1 : 1 ≤ bpp) (h2 : bpp ≤ 16) : (scale raw bpp).2 = true ↔ 2 ^ bpp - 1 < raw := by
  have hp : 2 ^ 1 ≤ 2 ^ bpp := Nat.pow_le_pow_right (by decide) h1
  have hq : 2 ^ bpp ≤ 2 ^ 16 := Nat.pow_le_pow_right (by decide) h2
  rw [scale_snd, scaleQuotient_eq]
  have hM : 1 ≤ 2 ^ bpp - 1 ∧ 2 ^ bpp - 1 ≤ 65535 := by omega
  generalize 2 ^ bpp - 1 = M at hM
  rw [← Nat.succ_le_iff, Nat.le_div_iff_mul_le (by omega)]
  constructor
  · intro h
    by_contra hc
    push Not at hc
    have : 2 * raw * 65535 ≤ 2 * M * 65535 := by nlinarith
    nlinarith
  · intro h
    have : M + 1 ≤ raw := h
    nlinarith

/-- The divisor of R156 is positive. -/
theorem maxRaw_pos (bpp : Nat) (h : 1 ≤ bpp) : 1 ≤ 2 ^ bpp - 1 := by
  have : 2 ^ 1 ≤ 2 ^ bpp := Nat.pow_le_pow_right (by decide) h
  omega

theorem maxRaw_le (bpp : Nat) (h : bpp ≤ 16) : 2 ^ bpp - 1 ≤ 65535 := by
  have : 2 ^ bpp ≤ 2 ^ 16 := Nat.pow_le_pow_right (by decide) h
  omega

/-- The effective depth of a descriptor whose override is legal (R130, R136). -/
theorem effBpp_range (g : Regs) (h : g.bppOvr.toNat ≤ 16) : 1 ≤ g.effBpp ∧ g.effBpp ≤ 16 := by
  unfold Regs.effBpp
  repeat' split
  all_goals omega

/-! ### The preview -/

/-- R198 in arithmetic. -/
theorem component_toNat (sum bias gain shift : Nat) :
    (component sum bias gain shift).toNat = min 255 ((sum + bias) * gain / 2 ^ shift) := by
  simp only [component, BitVec.toNat_ofNat, Nat.shiftRight_eq_div_pow]
  generalize (sum + bias) * gain / 2 ^ shift = n
  omega

end Sys2Proof.Laws
end

