-- ==== Sys2Proof/Laws/Stages.lean ====
section
/-! SUPPORT. What each command's body can do, said once: the cases of its result, the registers it leaves, and what a read of its output
memory gives. -/

namespace Sys2Proof.Laws

open Sys2Proof.Machine

/-! ### Index arithmetic of a dense grid -/

theorem grid_div {w r c : Nat} (h : c < w) : (r * w + c) / w = r := by
  rw [Nat.mul_comm, Nat.mul_add_div (by omega), Nat.div_eq_of_lt h, Nat.add_zero]

theorem grid_mod {w r c : Nat} (h : c < w) : (r * w + c) % w = c := by
  rw [Nat.mul_comm, Nat.mul_add_mod, Nat.mod_eq_of_lt h]

theorem grid_lt {w h r c : Nat} (hr : r < h) (hc : c < w) : r * w + c < w * h := by
  calc r * w + c < r * w + w := by omega
    _ = (r + 1) * w := by rw [Nat.succ_mul]
    _ ≤ h * w := Nat.mul_le_mul_right _ hr
    _ = w * h := Nat.mul_comm _ _

theorem grid_split {w h i : Nat} (hi : i < w * h) : i / w < h ∧ i % w < w ∧ i / w * w + i % w = i := by
  have hw : 0 < w := Nat.pos_of_ne_zero (fun e => by simp [e] at hi)
  refine ⟨Nat.div_lt_of_lt_mul hi, Nat.mod_lt _ hw, ?_⟩
  rw [Nat.mul_comm]
  exact Nat.div_add_mod i w

/-! ### Completion -/

/-- `finish` always answers the completed state. -/
@[simp] theorem finish_eq (s : State) (e : Option Err) : finish (s, e) = .next (complete e s) := rfl

@[simp] theorem ch_complete (e : Option Err) (s : State) (role : Role) : (complete e s).ch role = s.ch role := by
  cases role <;> rfl

@[simp] theorem codeOf_none : codeOf none = 0 := rfl

theorem codeOf_some_ne (e : Err) : codeOf (some e) ≠ 0 := by cases e <;> decide

theorem codeOf_le (e : Option Err) : (codeOf e).toNat ≤ 6 := by
  rcases e with _ | e
  · decide
  · cases e <;> decide

/-! ### The descriptor's checks -/

theorem descCheck_eq_none (p : Params) (g : Regs) :
    descCheck p g = none ↔ ¬g.InvalidDim p ∧ ¬g.UnsupEnc ∧ g.reqLen ≤ g.inLen.toNat := by
  unfold descCheck
  split
  · simp_all
  · split
    · simp_all
    · split
      · simp_all
      · simp_all

/-- A descriptor that passes its checks has a layout (R136). -/
theorem layout_of_descCheck (p : Params) (g : Regs) (h : descCheck p g = none) : ∃ L, g.layout = some L := by
  have hu := ((descCheck_eq_none p g).mp h).2.1
  cases hl : g.layout with
  | none => exact absurd (Or.inr hl) hu
  | some L => exact ⟨L, rfl⟩

/-! ### DECODE -/

/-- The two ways the body of DECODE ends. -/
theorem decodeBody_cases (s : State) :
    (∃ e, descCheck s.params s.regs = some e ∧ decodeBody s = ({ s with regs := s.regs.invalidateAll }, some e)) ∨
    (∃ L, descCheck s.params s.regs = none ∧ s.regs.layout = some L ∧ decodeBody s = (decodePlane L s, none)) := by
  cases hc : descCheck s.params s.regs with
  | some e => exact .inl ⟨e, rfl, by simp [decodeBody, hc]⟩
  | none =>
    obtain ⟨L, hL⟩ := layout_of_descCheck _ _ hc
    exact .inr ⟨L, rfl, hL, by simp [decodeBody, hc, hL]⟩

theorem decodeBody_ok (s : State) (L : Layout) (hc : descCheck s.params s.regs = none) (hL : s.regs.layout = some L) :
    decodeBody s = (decodePlane L s, none) := by
  simp [decodeBody, hc, hL]

/-- The registers a successful DECODE leaves (R150). -/
theorem decodePlane_regs (L : Layout) (s : State) :
    (decodePlane L s).regs = { s.regs with
      planeW := s.regs.width, planeH := s.regs.height, satf := (decodePlane L s).regs.satf,
      planeV := true, chV := false, rgbV := false } := rfl

/-- The sample at (r, c) of the plane a DECODE leaves (R150, R158). -/
theorem readPlane_decodePlane (L : Layout) (s : State) (r c : Nat) (hr : r < s.regs.height.toNat) (hc : c < s.regs.width.toNat) :
    (decodePlane L s).readPlane (r * s.regs.width.toNat + c) = (scale (s.rawSample L r c) s.regs.effBpp).1 := by
  have hi := grid_lt hr hc
  simp only [State.readPlane, decodePlane_plane]
  rw [read_overwrite_inside _ _ _ _ _ hi]
  simp only [State.planeSample, grid_div hc, grid_mod hc]

/-- An element beyond the extent keeps its value (R158). -/
theorem readPlane_decodePlane_beyond (L : Layout) (s : State) (i : Nat) (hi : s.regs.width.toNat * s.regs.height.toNat ≤ i) :
    (decodePlane L s).readPlane i = s.readPlane i := by
  simp only [State.readPlane, decodePlane_plane]
  exact read_overwrite_outside _ _ _ _ _ hi

/-- SATF after a DECODE: whether a sample saturated (R157). -/
theorem satf_decodePlane (L : Layout) (s : State) :
    (decodePlane L s).regs.satf = true ↔
      ∃ r c, r < s.regs.height.toNat ∧ c < s.regs.width.toNat ∧ (scale (s.rawSample L r c) s.regs.effBpp).2 = true := by
  simp only [decodePlane, List.any_eq_true, List.mem_range, State.planeSample]
  constructor
  · rintro ⟨i, hi, h⟩
    obtain ⟨h1, h2, _⟩ := grid_split hi
    exact ⟨_, _, h1, h2, h⟩
  · rintro ⟨r, c, hr, hc, h⟩
    exact ⟨_, grid_lt hr hc, by rw [grid_div hc, grid_mod hc]; exact h⟩

/-! ### SPLIT -/

theorem bayerOrderOf_isSome : ∀ code : BitVec 3, (bayerOrderOf code).isSome = decide (code.toNat < 4) := by decide

theorem bayerOrderOf_some (code : BitVec 3) (h : code.toNat < 4) : ∃ o, bayerOrderOf code = some o :=
  Option.isSome_iff_exists.mp (by rw [bayerOrderOf_isSome]; exact decide_eq_true h)

theorem bayerOrderOf_none (code : BitVec 3) (h : 4 ≤ code.toNat) : bayerOrderOf code = none := by
  have := bayerOrderOf_isSome code
  rw [decide_eq_false (by omega)] at this
  simpa using this

/-- The three ways the body of SPLIT ends. -/
theorem splitBody_cases (s : State) :
    (s.regs.planeV = false ∧ splitBody s = ({ s with regs := s.regs.invalidateFromCh }, some .notReady)) ∨
    (s.regs.planeV = true ∧ bayerOrderOf s.regs.bayer = none ∧
      splitBody s = ({ s with regs := s.regs.invalidateFromCh }, some .unsupportedBayerOrder)) ∨
    (∃ o, s.regs.planeV = true ∧ bayerOrderOf s.regs.bayer = some o ∧ splitBody s = (splitChannels o s, none)) := by
  cases hv : s.regs.planeV with
  | false => exact .inl ⟨rfl, by simp [splitBody, hv]⟩
  | true =>
    cases ho : bayerOrderOf s.regs.bayer with
    | none => exact .inr (.inl ⟨rfl, rfl, by simp [splitBody, hv, ho]⟩)
    | some o => exact .inr (.inr ⟨o, rfl, rfl, by simp [splitBody, hv, ho]⟩)

theorem splitBody_ok (s : State) (o : BayerOrder) (hv : s.regs.planeV = true) (ho : bayerOrderOf s.regs.bayer = some o) :
    splitBody s = (splitChannels o s, none) := by
  simp [splitBody, hv, ho]

/-- In every order the four quadrants go to four different roles (R182). -/
theorem roleOf_injective (o : BayerOrder) (a b a' b' : Bool) (h : roleOf o a b = roleOf o a' b') : a = a' ∧ b = b' := by
  revert h
  cases o <;> cases a <;> cases b <;> cases a' <;> cases b' <;> decide

/-- Every role is some quadrant's (R182). -/
theorem roleOf_surjective (o : BayerOrder) (role : Role) : ∃ a b, roleOf o a b = role := by
  cases o <;> cases role <;> decide

/-- The registers a successful SPLIT leaves (R180). -/
theorem splitChannels_regs (o : BayerOrder) (s : State) :
    (splitChannels o s).regs = { s.regs with
      chW := BitVec.ofNat 16 (s.regs.planeW.toNat / 2), chH := BitVec.ofNat 16 (s.regs.planeH.toNat / 2), chV := true, rgbV := false } := by
  simp [splitChannels]

theorem splitChannels_chW (o : BayerOrder) (s : State) : (splitChannels o s).regs.chW.toNat = s.regs.planeW.toNat / 2 := by
  have := s.regs.planeW.isLt
  rw [splitChannels_regs]
  simp only [BitVec.toNat_ofNat]
  omega

theorem splitChannels_chH (o : BayerOrder) (s : State) : (splitChannels o s).regs.chH.toNat = s.regs.planeH.toNat / 2 := by
  have := s.regs.planeH.isLt
  rw [splitChannels_regs]
  simp only [BitVec.toNat_ofNat]
  omega

/-- The memory of the role of quadrant (a, b) after a successful SPLIT: its extent holds the quadrant (R180, R181). -/
theorem ch_splitChannels (o : BayerOrder) (s : State) (a b : Bool) :
    (splitChannels o s).ch (roleOf o a b) =
      (s.ch (roleOf o a b)).overwrite (s.regs.planeW.toNat / 2 * (s.regs.planeH.toNat / 2))
        (fun i => s.readPlane (quadrantIndex s.regs.planeW.toNat (s.regs.planeW.toNat / 2) a b i)) := by
  cases o <;> cases a <;> cases b <;> rfl

/-- An element of a channel the last SPLIT wrote (R181). -/
theorem readCh_splitChannels (o : BayerOrder) (s : State) (a b : Bool) (y x : Nat)
    (hy : y < s.regs.planeH.toNat / 2) (hx : x < s.regs.planeW.toNat / 2) :
    (splitChannels o s).readCh (roleOf o a b) (y * (s.regs.planeW.toNat / 2) + x)
      = s.readPlane ((2 * y + a.toNat) * s.regs.planeW.toNat + (2 * x + b.toNat)) := by
  simp only [State.readCh, ch_splitChannels]
  rw [read_overwrite_inside _ _ _ _ _ (grid_lt hy hx)]
  simp only [quadrantIndex, grid_div hx, grid_mod hx]

/-- A channel element beyond the extent keeps its value (R180). -/
theorem readCh_splitChannels_beyond (o : BayerOrder) (s : State) (role : Role) (i : Nat)
    (hi : s.regs.planeW.toNat / 2 * (s.regs.planeH.toNat / 2) ≤ i) :
    (splitChannels o s).readCh role i = s.readCh role i := by
  obtain ⟨a, b, rfl⟩ := roleOf_surjective o role
  simp only [State.readCh, ch_splitChannels]
  exact read_overwrite_outside _ _ _ _ _ hi

/-! ### RECON -/

/-- The two ways the body of RECON ends. -/
theorem reconBody_cases (s : State) :
    (s.regs.chV = false ∧ reconBody s = ({ s with regs := s.regs.invalidateRgb }, some .notReady)) ∨
    (s.regs.chV = true ∧ reconBody s = (reconPreview s, none)) := by
  cases hv : s.regs.chV with
  | false => exact .inl ⟨rfl, by simp [reconBody, hv]⟩
  | true => exact .inr ⟨rfl, by simp [reconBody, hv]⟩

theorem reconBody_ok (s : State) (hv : s.regs.chV = true) : reconBody s = (reconPreview s, none) := by simp [reconBody, hv]

/-- The preview is never larger than the channels (R199). -/
theorem outDims_le (e : Edge) (w h : Nat) : (outDims e w h).1 ≤ w ∧ (outDims e w h).2 ≤ h := by
  cases e <;> simp [outDims]

/-- The registers a successful RECON leaves (R195). -/
theorem reconPreview_regs (s : State) :
    (reconPreview s).regs = { s.regs with
      rgbW := (reconPreview s).regs.rgbW, rgbH := (reconPreview s).regs.rgbH, rgbV := true } := rfl

theorem reconPreview_rgbW (s : State) :
    (reconPreview s).regs.rgbW.toNat = (outDims s.regs.edge s.regs.chW.toNat s.regs.chH.toNat).1 := by
  have := s.regs.chW.isLt
  have := (outDims_le s.regs.edge s.regs.chW.toNat s.regs.chH.toNat).1
  simp only [reconPreview, BitVec.toNat_ofNat]
  omega

theorem reconPreview_rgbH (s : State) :
    (reconPreview s).regs.rgbH.toNat = (outDims s.regs.edge s.regs.chW.toNat s.regs.chH.toNat).2 := by
  have := s.regs.chH.isLt
  have := (outDims_le s.regs.edge s.regs.chW.toNat s.regs.chH.toNat).2
  simp only [reconPreview, BitVec.toNat_ofNat]
  omega

/-- The pixel at (y, x) of the preview a RECON leaves (R195, R200). -/
theorem readRgb_reconPreview (s : State) (y x : Nat)
    (hy : y < (outDims s.regs.edge s.regs.chW.toNat s.regs.chH.toNat).2)
    (hx : x < (outDims s.regs.edge s.regs.chW.toNat s.regs.chH.toNat).1) :
    (reconPreview s).readRgb (y * (outDims s.regs.edge s.regs.chW.toNat s.regs.chH.toNat).1 + x)
      = s.previewPixel s.regs.chW.toNat s.regs.chH.toNat y x := by
  simp only [State.readRgb, reconPreview]
  rw [read_overwrite_inside _ _ _ _ _ (grid_lt hy hx)]
  simp only [grid_div hx, grid_mod hx]

/-- An RGB element beyond the extent keeps its value (R200). -/
theorem readRgb_reconPreview_beyond (s : State) (i : Nat)
    (hi : (reconPreview s).regs.rgbW.toNat * (reconPreview s).regs.rgbH.toNat ≤ i) :
    (reconPreview s).readRgb i = s.readRgb i := by
  rw [reconPreview_rgbW, reconPreview_rgbH] at hi
  simp only [State.readRgb, reconPreview]
  exact read_overwrite_outside _ _ _ _ _ hi

/-! ### The commands -/

/-- The body of each command. -/
def bodyOf : Instr → State → State × Option Err
  | .nop, s => (s, none)
  | .decode, s => decodeBody s
  | .split, s => splitBody s
  | .recon, s => reconBody s
  | .pipe, s => pipeBody s

/-- Every command runs its body and completes with its error, if any (R216). -/
theorem exec_eq (i : Instr) (s : State) : exec i s = .next (complete (bodyOf i s).2 (bodyOf i s).1) := by
  cases i <;> rfl

/-- The three ways PIPE ends: its first stage fails, its second fails, or its third runs (R218). -/
theorem pipeBody_cases (s : State) :
    (∃ e, (decodeBody s).2 = some e ∧ pipeBody s = ((decodeBody s).1, some e)) ∨
    (∃ e, (decodeBody s).2 = none ∧ (splitBody (decodeBody s).1).2 = some e ∧
      pipeBody s = ((splitBody (decodeBody s).1).1, some e)) ∨
    ((decodeBody s).2 = none ∧ (splitBody (decodeBody s).1).2 = none ∧
      pipeBody s = reconBody (splitBody (decodeBody s).1).1) := by
  cases hd : (decodeBody s).2 with
  | some e => exact .inl ⟨e, rfl, by simp [pipeBody, thenStage, hd]⟩
  | none =>
    cases hs : (splitBody (decodeBody s).1).2 with
    | some e => exact .inr (.inl ⟨e, rfl, rfl, by simp [pipeBody, thenStage, hd, hs]⟩)
    | none => exact .inr (.inr ⟨rfl, rfl, by simp [pipeBody, thenStage, hd, hs]⟩)

end Sys2Proof.Laws
end

