-- ==== Sys2Proof/Laws/Bus.lean ====
section
/-! SUPPORT. What a host transaction can do, said once (R70 to R81). -/

namespace Sys2Proof.Laws

open Sys2Proof.Machine

/-! ### Addresses -/

/-- The REG window at a listed offset holds the register (R23). -/
theorem regAt_offset (r : Reg) : regAt r.offset = some r := by cases r <;> decide

/-- A register found at an offset has that offset. -/
theorem offset_of_regAt (off : Nat) (r : Reg) (h : regAt off = some r) : r.offset = off := by
  have := List.find?_some h
  simpa using this

theorem offset_lt (r : Reg) : r.offset < 0x1000 := by cases r <;> decide

theorem offset_aligned (r : Reg) : r.offset % 4 = 0 := by cases r <;> decide

/-- The target of an aligned word access to a listed register. -/
theorem target_reg (p : Params) (r : Reg) : target p (BitVec.ofNat 32 r.offset) .word = some (.reg r) := by
  have h1 := offset_lt r
  have h2 := offset_aligned r
  have h3 : (BitVec.ofNat 32 r.offset).toNat = r.offset := by
    simp only [BitVec.toNat_ofNat]
    omega
  have h4 : r.offset / 2 ^ 28 = 0 := by omega
  have h5 : 4 * (r.offset % 2 ^ 28 / 4) = r.offset := by omega
  simp only [target, windowTarget, h3, h2, h4, h5, regAt_offset, and_self, if_true, Option.map_some]

/-- A target is met only by an aligned word access (R71). -/
theorem target_some {p : Params} {addr : Word} {size : AccessSize} {t : Target} (h : target p addr size = some t) :
    size = .word ∧ addr.toNat % 4 = 0 ∧ windowTarget p (addr.toNat / 2 ^ 28) ((addr.toNat % 2 ^ 28) / 4) = some t := by
  unfold target at h
  split at h
  · rename_i hc
    exact ⟨hc.1, hc.2, h⟩
  · exact absurd h (by simp)

theorem target_misaligned (p : Params) (addr : Word) (size : AccessSize) (h : size ≠ .word ∨ addr.toNat % 4 ≠ 0) :
    target p addr size = none := by
  unfold target
  rw [if_neg]
  tauto

/-- A word of a window is below its implemented end. -/
theorem wordBelow_some {n k : Nat} {t u : Target} (h : wordBelow n k t = some u) : k < n ∧ u = t := by
  unfold wordBelow at h
  split at h
  · rename_i hk
    exact ⟨hk, (Option.some.inj h).symm⟩
  · exact absurd h (by simp)

/-- The windows of the map (R72). -/
theorem windowTarget_cases {p : Params} {window k : Nat} {t : Target} (h : windowTarget p window k = some t) :
    (window = 0 ∧ ∃ r, t = .reg r ∧ r.offset = 4 * k) ∨
    (window = 1 ∧ t = .inWord k ∧ k < p.inSize / 4) ∨
    (window = 2 ∧ t = .planeWord k ∧ k < (p.np + 1) / 2) ∨
    (window = 3 ∧ t = .chWord .r k ∧ k < (p.nc + 1) / 2) ∨
    (window = 4 ∧ t = .chWord .gr k ∧ k < (p.nc + 1) / 2) ∨
    (window = 5 ∧ t = .chWord .gb k ∧ k < (p.nc + 1) / 2) ∨
    (window = 6 ∧ t = .chWord .b k ∧ k < (p.nc + 1) / 2) ∨
    (window = 7 ∧ t = .rgbWord k ∧ k < p.nc) := by
  unfold windowTarget at h
  split at h
  · rename_i hw
    obtain ⟨r, hr, rfl⟩ := Option.map_eq_some_iff.mp h
    exact .inl ⟨hw, r, rfl, offset_of_regAt _ _ hr⟩
  right
  split at h
  · rename_i hw
    exact .inl ⟨hw, (wordBelow_some h).2, (wordBelow_some h).1⟩
  right
  split at h
  · rename_i hw
    exact .inl ⟨hw, (wordBelow_some h).2, (wordBelow_some h).1⟩
  right
  split at h
  · rename_i hw
    exact .inl ⟨hw, (wordBelow_some h).2, (wordBelow_some h).1⟩
  right
  split at h
  · rename_i hw
    exact .inl ⟨hw, (wordBelow_some h).2, (wordBelow_some h).1⟩
  right
  split at h
  · rename_i hw
    exact .inl ⟨hw, (wordBelow_some h).2, (wordBelow_some h).1⟩
  right
  split at h
  · rename_i hw
    exact .inl ⟨hw, (wordBelow_some h).2, (wordBelow_some h).1⟩
  right
  split at h
  · rename_i hw
    exact ⟨hw, (wordBelow_some h).2, (wordBelow_some h).1⟩
  · exact absurd h (by simp)

/-- A register target comes from its own address. -/
theorem addr_of_target_reg {p : Params} {addr : Word} {size : AccessSize} {r : Reg} (h : target p addr size = some (.reg r)) :
    size = .word ∧ addr = BitVec.ofNat 32 r.offset := by
  obtain ⟨hs, ha, hw⟩ := target_some h
  refine ⟨hs, ?_⟩
  rcases windowTarget_cases hw with ⟨h0, r', hr', ho⟩ | h | h | h | h | h | h | h
  · obtain rfl := Target.reg.inj hr'
    apply BitVec.eq_of_toNat_eq
    have := addr.isLt
    simp only [BitVec.toNat_ofNat]
    omega
  all_goals exact absurd h.2.1 (by simp)

/-- Word k of window w stands at address w * 0x10000000 + 4 * k (R72). -/
theorem target_window (p : Params) (w k : Nat) (hw : w < 16) (hk : k < 0x04000000) :
    target p (BitVec.ofNat 32 (w * 0x10000000 + 4 * k)) .word = windowTarget p w k := by
  have e : (BitVec.ofNat 32 (w * 0x10000000 + 4 * k)).toNat = w * 0x10000000 + 4 * k := by
    simp only [BitVec.toNat_ofNat]
    omega
  unfold target
  rw [e, if_pos ⟨rfl, by omega⟩, show (w * 0x10000000 + 4 * k) / 2 ^ 28 = w by omega,
    show (w * 0x10000000 + 4 * k) % 2 ^ 28 / 4 = k by omega]

/-! ### Packing -/

/-- Two fields side by side, in arithmetic. -/
theorem append_toNat {m n : Nat} (x : BitVec m) (y : BitVec n) : (x ++ y).toNat = 2 ^ n * x.toNat + y.toNat := by
  rw [BitVec.toNat_append, Nat.shiftLeft_eq, Nat.mul_comm, Nat.two_pow_add_eq_or_of_lt y.isLt]

/-- A field below reserved bits that read 0 (R51). -/
theorem reserved_append_toNat (m : Nat) {n : Nat} (x : BitVec n) : (0#m ++ x).toNat = x.toNat := by
  rw [append_toNat]
  simp

/-- R77 and R78 in arithmetic. -/
theorem packSamples_toNat (n k : Nat) (sampleAt : Nat → Sample) :
    (packSamples n k sampleAt).toNat =
      (sampleAt (2 * k)).toNat + 65536 * (if 2 * k + 1 < n then (sampleAt (2 * k + 1)).toNat else 0) := by
  rw [packSamples, append_toNat, Nat.add_comm]
  split <;> rfl

/-! ### Writes -/

/-- A bus write is refused with no change, or it does what its target does (R70). -/
theorem busWrite_cases (addr : Word) (size : AccessSize) (d : Word) (s : State) :
    busWrite addr size d s = (s, .slverr) ∨
    ∃ t s', target s.params addr size = some t ∧ writeBlocked t s = false ∧ writeTarget t d s = some s' ∧
      busWrite addr size d s = (s', .okay) := by
  unfold busWrite
  split
  · exact .inl rfl
  · rename_i t ht
    split
    · exact .inl rfl
    · rename_i hb
      split
      · exact .inl rfl
      · rename_i s' hs'
        exact .inr ⟨t, s', ht, by simpa using hb, hs', rfl⟩

/-- A write to a listed register that nothing refuses. -/
theorem busWrite_reg (r : Reg) (d : Word) (s s' : State) (hb : s.busy = false ∨ writableWhileBusy r = true)
    (hw : writeReg r d s = some s') : busWrite (BitVec.ofNat 32 r.offset) .word d s = (s', .okay) := by
  have hblock : writeBlocked (.reg r) s = false := by
    rcases hb with hb | hb <;> simp [writeBlocked, hb]
  simp [busWrite, target_reg, hblock, writeTarget, hw]

/-- A write to a listed register that is refused while busy. -/
theorem busWrite_reg_busy (r : Reg) (d : Word) (s : State) (hb : s.busy = true) (hw : writableWhileBusy r = false) :
    busWrite (BitVec.ofNat 32 r.offset) .word d s = (s, .slverr) := by
  simp [busWrite, target_reg, writeBlocked, hb, hw]

/-- Register reads are never refused (R74, R80). -/
theorem busRead_reg (r : Reg) (s : State) : busRead (BitVec.ofNat 32 r.offset) .word s = .read .okay (readReg r s) := by
  simp [busRead, target_reg, readBlocked, Target.inMemory, readTarget]

/-! ### What an accepted write changes -/

/-- Every accepted write is one of these: a soft reset or none, an acceptance, a change of registers only, or an IN word. -/
theorem writeTarget_cases {t : Target} {d : Word} {s s' : State} (h : writeTarget t d s = some s') :
    (t = .reg .ctrl ∧ s' = (if d.getLsbD 0 then softReset s else s)) ∨
    (t = .reg .cmd ∧ s' = accept d s) ∨
    (∃ r, t = .reg r ∧ ∃ g, s' = { s with regs := g }) ∨
    (∃ k, t = .inWord k ∧ s' = writeInWord k d s) := by
  cases t with
  | reg r =>
    cases r <;> simp only [writeTarget, writeReg] at h
    case ctrl => exact .inl ⟨rfl, (Option.some.inj h).symm⟩
    case cmd => exact .inr (.inl ⟨rfl, (Option.some.inj h).symm⟩)
    all_goals first
      | exact .inr (.inr (.inl ⟨_, rfl, _, (Option.some.inj h).symm⟩))
      | exact absurd h.symm (Option.some_ne_none s')
  | inWord k => exact .inr (.inr (.inr ⟨k, rfl, (Option.some.inj h).symm⟩))
  | planeWord k => exact absurd h (by simp [writeTarget])
  | chWord role k => exact absurd h (by simp [writeTarget])
  | rgbWord k => exact absurd h (by simp [writeTarget])

/-! ### A host step -/

/-- A transaction leaves what is still to happen, and the answers given before, as they were (log 2). -/
theorem transact_inputs_replies (t : Transaction) (s : State) :
    (transact t s).1.inputs = s.inputs ∧ (transact t s).1.replies = s.replies := by
  cases t with
  | read addr size => exact ⟨rfl, rfl⟩
  | write addr size d =>
    show (busWrite addr size d s).1.inputs = s.inputs ∧ (busWrite addr size d s).1.replies = s.replies
    rcases busWrite_cases addr size d s with h | ⟨t, s', -, -, hw, h⟩ <;> rw [h]
    · exact ⟨rfl, rfl⟩
    · rcases writeTarget_cases hw with ⟨-, rfl⟩ | ⟨-, rfl⟩ | ⟨r, -, g, rfl⟩ | ⟨k, -, rfl⟩
      · split <;> simp
      all_goals exact ⟨rfl, rfl⟩

/-- A host step changes the block as its transaction does, and keeps the answer (log 2). -/
theorem hostStep_eq (t : Transaction) (s : State) :
    hostStep t s = { (transact t s).1 with replies := (transact t s).2 :: (transact t s).1.replies } := rfl

end Sys2Proof.Laws
end

