-- ==== Sys2Proof/Laws/PerInstr.lean ====
section
/-! SUPPORT. The statements made per instruction: each command's word, read back as a table row, is that command. -/

namespace Sys2Proof.Laws.RoundTrip

/-- A command is well-formed, and so is its word, whose 32 bits decode to the command (R100, R101). -/
def Statement (i : Instr) : Prop :=
  i.wf = true ∧ wfCommandWord (encode i) = true ∧ decodeTableWord 32 (encode i).toNat = some i

theorem nop : Statement .nop := by unfold Statement; decide

theorem decode : Statement .decode := by unfold Statement; decide

theorem split : Statement .split := by unfold Statement; decide

theorem recon : Statement .recon := by unfold Statement; decide

theorem pipe : Statement .pipe := by unfold Statement; decide

end Sys2Proof.Laws.RoundTrip
end

