-- ==== Sys2Proof/Laws/Step.lean ====
section
/-! SUPPORT. What one step can do, said once (R10, R86). -/

namespace Sys2Proof.Laws

open Sys2Proof.Machine

/-- The engine's step: no command, a command of the table, or an illegal one (R216, R219). -/
theorem engineStep_cases (s : State) :
    (s.pending = none ∧ engineStep s = .next s) ∨
    (∃ c i, s.pending = some c ∧ decodeWord c = .ok i ∧ engineStep s = .next (complete (bodyOf i s).2 (bodyOf i s).1)) ∨
    (∃ c e, s.pending = some c ∧ decodeWord c = .error e ∧ engineStep s = .next (complete (some .illegalCommand) s)) := by
  cases hp : s.pending with
  | none => exact .inl ⟨rfl, by simp [engineStep, hp]⟩
  | some c =>
    cases hd : decodeWord c with
    | ok i => exact .inr (.inl ⟨c, i, rfl, hd, by simp [engineStep, hp, hd, exec_eq]⟩)
    | error e => exact .inr (.inr ⟨c, e, rfl, hd, by simp [engineStep, hp, hd, execIllegal]⟩)

/-- One step of the block: the engine's turn (by the schedule, or because no input is left), a host transaction, or the reset. -/
theorem step_cases (s : State) :
    (s.inputs = [] ∧ step s = engineStep s) ∨
    (∃ rest, s.inputs = .engine :: rest ∧ step s = engineStep { s with inputs := rest }) ∨
    (∃ t rest, s.inputs = .host t :: rest ∧ step s = .next (hostStep t { s with inputs := rest })) ∨
    (∃ rest, s.inputs = .hardReset :: rest ∧ step s = .next (hardReset { s with inputs := rest })) := by
  cases hi : s.inputs with
  | nil => exact .inl ⟨rfl, by simp [step, stepBlock, hi]⟩
  | cons x rest =>
    cases x with
    | host t => exact .inr (.inr (.inl ⟨t, rest, rfl, by simp [step, stepBlock, hi]⟩))
    | engine => exact .inr (.inl ⟨rest, rfl, by simp [step, stepBlock, hi]⟩)
    | hardReset => exact .inr (.inr (.inr ⟨rest, rfl, by simp [step, stepBlock, hi]⟩))

end Sys2Proof.Laws
end

