-- ==== Sys2Proof/Tests/Slice0.lean ====
section
/-! SUPPORT. Small tests, with expected values from the spec's tables and vectors, and for every obligation with hypotheses a witness that
meets them. -/

open Sys2Proof Sys2Proof.Machine Sys2Proof.Claims

namespace Sys2Proof.Tests

-- One thread at a time: the kernel evaluations below would each hold a stack of their own.
set_option Elab.async false

/-! ### Decoding: the words of R101, written out -/

theorem test_decode_nop : decodeWord 0b00000000000000000000000000000000#32 = .ok .nop := by decide
theorem test_decode_decode : decodeWord 0b00000000000000000000000000000001#32 = .ok .decode := by decide
theorem test_decode_split : decodeWord 0b00000000000000000000000000000010#32 = .ok .split := by decide
theorem test_decode_recon : decodeWord 0b00000000000000000000000000000011#32 = .ok .recon := by decide
theorem test_decode_pipe : decodeWord 0b00000000000000000000000000000100#32 = .ok .pipe := by decide

/-- CT-2 to CT-6 of 95_test_vectors.md: words that are no command. -/
theorem test_decode_illegal :
    decodeWord 0x00000005 = .error .reservedOp ∧ decodeWord 0x0000000F = .error .reservedOp ∧
    decodeWord 0x00000011 = .error .reservedBits ∧ decodeWord 0xFFFFFFFF = .error .reservedBits ∧
    decodeWord 0x80000001 = .error .reservedBits := by decide

/-! ### Well-formedness: one ill-formed term for each check of R8 and R100 -/

/-- The parameters of 95_test_vectors.md, and those of BUS-18, pass. -/
theorem test_params_wf :
    Params.wf { maxW := 64, maxH := 64, inSize := 4096 } = true ∧ Params.wf { maxW := 3, maxH := 3, inSize := 16 } = true := by decide

theorem test_params_maxW_zero : Params.wf { maxW := 0, maxH := 64, inSize := 4096 } = false := by decide
theorem test_params_maxW_large : Params.wf { maxW := 65536, maxH := 64, inSize := 4096 } = false := by decide
theorem test_params_maxH_zero : Params.wf { maxW := 64, maxH := 0, inSize := 4096 } = false := by decide
theorem test_params_maxH_large : Params.wf { maxW := 64, maxH := 65536, inSize := 4096 } = false := by decide
theorem test_params_inSize_small : Params.wf { maxW := 64, maxH := 64, inSize := 0 } = false := by decide
theorem test_params_inSize_large : Params.wf { maxW := 64, maxH := 64, inSize := 0x10000004 } = false := by decide
theorem test_params_inSize_odd : Params.wf { maxW := 64, maxH := 64, inSize := 4097 } = false := by decide
theorem test_params_area_large : Params.wf { maxW := 65535, maxH := 65535, inSize := 4096 } = false := by decide
theorem test_word_reservedBits : wfCommandWord 0x00000011 = false := by decide
theorem test_word_reservedOp : wfCommandWord 0x00000005 = false := by decide

/-! ### States for the tests -/

/-- The valid parameters of log 1. -/
theorem params_ok : Config.params.WellFormed := by constructor <;> decide

/-- A list as the cells 0, 1, 2, .. of a memory. -/
def filled {α : Type} (l : List α) : Memory α := { gen := 0, cells := l.zipIdx.map (fun c => (c.2, c.1)) }

/-- A descriptor with IN holding `bytes` and IN_LEN their number. -/
def descState (w h : BitVec 16) (enc : BitVec 3) (ovr : BitVec 5) (bytes : List Byte) : State :=
  { State.reset with
    inMem := filled bytes
    regs := { Regs.reset with width := w, height := h, enc := enc, bppOvr := ovr, inLen := BitVec.ofNat 32 bytes.length } }

/-- The same with header, padding and byte order. -/
def paddedState (w h : BitVec 16) (enc : BitVec 3) (hdr : Word) (lpad rpad : BitVec 16) (big : Bool) (bytes : List Byte) : State :=
  let s := descState w h enc 0 bytes
  { s with regs := { s.regs with header := hdr, lpad := lpad, rpad := rpad, bigEndian := big } }

/-- A valid plane with PLANE\[i\] = i. -/
def planeState (w h : BitVec 16) (bayer : BitVec 3) : State :=
  { State.reset with
    plane := filled ((List.range (w.toNat * h.toNat)).map (BitVec.ofNat 16))
    regs := { Regs.reset with bayer := bayer, planeW := w, planeH := h, planeV := true } }

/-- Valid channels: R, then Gr, Gb and B the same at every index. -/
def chState (w h : BitVec 16) (r : List Sample) (gr gb b : Sample) (rnd : Bool) (edge : Edge) : State :=
  { State.reset with
    chR := filled r, chGr := filled (r.map fun _ => gr), chGb := filled (r.map fun _ => gb), chB := filled (r.map fun _ => b)
    regs := { Regs.reset with rnd := rnd, edge := edge, chW := w, chH := h, planeV := true, chV := true } }

/-- The same state with other gains. -/
def withGains (gr gg gb : BitVec 16) (s : State) : State :=
  { s with regs := { s.regs with gainR := gr, gainG := gg, gainB := gb } }

/-- The next state, if there is one. -/
def nextOf (o : Host.Outcome State Fault Refusal) : Option State :=
  match o with
  | .next t => some t
  | .fault _ => none
  | .refused _ => none

/-- Code, SATF and the first n plane samples after a command. -/
def planeAfter (i : Instr) (n : Nat) (s : State) : Option (Nat × Bool × List Nat) :=
  (nextOf (exec i s)).map fun t => (t.regs.errcode.toNat, t.regs.satf, (List.range n).map fun k => (t.readPlane k).toNat)

/-- Code, channel size and the first n samples of the four channels after a command. -/
def channelsAfter (i : Instr) (n : Nat) (s : State) : Option (Nat × Nat × Nat × List (List Nat)) :=
  (nextOf (exec i s)).map fun t => (t.regs.errcode.toNat, t.regs.chW.toNat, t.regs.chH.toNat,
    [Role.r, .gr, .gb, .b].map fun role => (List.range n).map fun k => (t.readCh role k).toNat)

/-- Code, preview size and the first n preview pixels, as bus words, after a command. -/
def pixelsAfter (i : Instr) (n : Nat) (s : State) : Option (Nat × Nat × Nat × List Nat) :=
  (nextOf (exec i s)).map fun t => (t.regs.errcode.toNat, t.regs.rgbW.toNat, t.regs.rgbH.toNat,
    (List.range n).map fun k => (packPixel (t.readRgb k)).toNat)

/-- STATUS after the step that runs a command word from a state. -/
def statusAfter (w : Nat) (s : State) : Option Nat := (nextOf (step (s.withFetchWord 32 w))).map fun t => t.statusWord.toNat

/-! ### One step of each command -/

/-- CT-1, CT-2 and CT-7 to CT-9: STATUS after the first command word from reset. -/
theorem test_first_command :
    statusAfter 0 State.reset = some 0x02 ∧ statusAfter 5 State.reset = some 0x06 ∧ statusAfter 2 State.reset = some 0x06 ∧
    statusAfter 3 State.reset = some 0x06 ∧ statusAfter 1 State.reset = some 0x06 := by decide +kernel

/-- U8-2, U8-3 and U16-3: header, padding, big-endian. -/
theorem test_decode_padded :
    planeAfter .decode 4 (paddedState 2 2 0 1 1 1 false [0xAA, 0xBB, 0x10, 0x20, 0xCC, 0xDD, 0x30, 0x40, 0xEE])
      = some (0, false, [4112, 8224, 12336, 16448]) ∧
    planeAfter .decode 0 (paddedState 2 2 0 1 1 1 false [0xAA, 0xBB, 0x10, 0x20, 0xCC, 0xDD, 0x30, 0x40]) = some (4, false, []) ∧
    planeAfter .decode 2 (paddedState 2 1 3 2 0 1 true [0xAA, 0xBB, 0x12, 0x34, 0x56, 0x78, 0xCC]) = some (0, false, [4660, 22136]) := by
  decide +kernel

/-- U10-2, U12-2, U16-5 and U-OV-4: partial groups, saturation, an override beside a family's layout. -/
theorem test_decode_groups :
    planeAfter .decode 6 (descState 6 1 1 0 [0xFF, 0x00, 0xAA, 0x55, 0x67, 0x48, 0xF0, 0x03])
      = some (0, false, [65535, 64, 43690, 21845, 18642, 61499]) ∧
    planeAfter .decode 3 (descState 3 1 2 0 [0xFF, 0x80, 0x0F, 0x7F, 0x0F]) = some (0, false, [65535, 32776, 32759]) ∧
    planeAfter .decode 1 (descState 1 1 3 12 [0xFF, 0x1F]) = some (0, true, [65535]) ∧
    planeAfter .decode 1 (descState 1 1 1 9 [0x03, 0xFF]) = some (0, false, [1924]) := by decide +kernel

/-- SP-2, SP-3 and SP-5: odd sizes, two orders, and a code that is none. -/
theorem test_split_odd :
    channelsAfter .split 2 (planeState 5 3 1) = some (0, 2, 1, [[0, 2], [1, 3], [5, 7], [6, 8]]) ∧
    channelsAfter .split 1 (planeState 2 3 0) = some (0, 1, 1, [[1], [0], [3], [2]]) ∧
    planeAfter .split 0 (planeState 4 4 4) = some (3, false, []) := by decide +kernel

/-- L1-8 under BGGR and GBRG: the other orders. -/
theorem test_split_orders :
    channelsAfter .split 4 (planeState 4 4 2) = some (0, 2, 2, [[5, 7, 13, 15], [4, 6, 12, 14], [1, 3, 9, 11], [0, 2, 8, 10]]) ∧
    channelsAfter .split 4 (planeState 4 4 3) = some (0, 2, 2, [[4, 6, 12, 14], [5, 7, 13, 15], [0, 2, 8, 10], [1, 3, 9, 11]]) := by
  decide +kernel

/-- EC-1 to EC-3: the three boundary modes over 3 × 2 channels. -/
theorem test_recon_edges :
    let r : List Sample := [0, 256, 512, 768, 1024, 1280]
    pixelsAfter .recon 6 (chState 3 2 r 512 0 65535 false .zero) = some (0, 3, 2, [0xFF0100, 0xFF0101, 0, 0, 0, 0]) ∧
    pixelsAfter .recon 2 (chState 3 2 r 512 0 65535 false .crop) = some (0, 2, 1, [0xFF0100, 0xFF0101]) ∧
    pixelsAfter .recon 6 (chState 3 2 r 512 0 65535 false .full)
      = some (0, 3, 2, [0xFF0100, 0xFF0101, 0xFF0102, 0xFF0103, 0xFF0104, 0xFF0105]) := by decide +kernel

/-- RC-1, RC-5 and RC-11, RC-12: gains and rounding, one pixel. -/
theorem test_recon_pixels :
    [pixelsAfter .recon 1 (chState 1 1 [0x8000] 0x4000 0x4000 0xFFFF true .full),
     pixelsAfter .recon 1 (withGains 0x2000 0x1800 0 (chState 1 1 [0x7F7F] 0x1000 0x1100 0x0080 true .full)),
     pixelsAfter .recon 1 (chState 1 1 [0x7F80] 0x7F00 0x7F00 0x7F7F true .full),
     pixelsAfter .recon 1 (chState 1 1 [0x7F80] 0x7F00 0x7F00 0x7F7F false .full)]
    = [some (0, 1, 1, [0x00FF4080]), some (0, 1, 1, [0x000019FF]), some (0, 1, 1, [0x007F7F80]), some (0, 1, 1, [0x007F7F7F])] := by
  decide +kernel

/-- The descriptor of CT-10 and CT-11: 2 × 2 raw8 with the bytes 1, 2, 3, 4. -/
def pipeState (bayer : BitVec 3) : State :=
  let s := descState 2 2 0 0 [1, 2, 3, 4]
  { s with regs := { s.regs with bayer := bayer } }

/-- CT-10: PIPE fails at SPLIT, and the plane stands. -/
theorem test_pipe_fails_at_split :
    planeAfter .pipe 4 (pipeState 4) = some (3, false, [257, 514, 771, 1028]) ∧ statusAfter 4 (pipeState 4) = some 0x16 := by
  decide +kernel

/-- CT-11: PIPE succeeds. -/
theorem test_pipe_succeeds :
    pixelsAfter .pipe 1 (pipeState 1) = some (0, 1, 1, [0]) ∧ channelsAfter .pipe 0 (pipeState 1) = some (0, 1, 1, [[], [], [], []]) ∧
    statusAfter 4 (pipeState 1) = some 0x72 := by decide +kernel

/-! ### The bus -/

/-- What a word read of an address answers. -/
def busWord (s : State) (addr : Word) : Option Nat :=
  match busRead addr .word s with
  | .read .okay v => some v.toNat
  | .read .slverr _ => none
  | .write _ => none

/-- BUS-2, BUS-3, BUS-5 and BUS-7: reserved bits and WARL fields. -/
theorem test_bus_writes :
    busWord (busWrite 0x040 .word 0x12345 State.reset).1 0x040 = some 0x2345 ∧
    busWord (busWrite 0x048 .word 0xFFFFFFFF State.reset).1 0x048 = some 0x000171F7 ∧
    busWord (busWrite 0x048 .word 0xFFFFFFFF State.reset).1 0x080 = some 0x71F ∧
    busWord (busWrite 0x06C .word 0xFFFFFFFF State.reset).1 0x06C = some 1 ∧
    busWord (busWrite 0x058 .word 0xFFFFFFFF State.reset).1 0x058 = some 0x1000 := by decide +kernel

/-- BUS-9, BUS-11, BUS-16 and BUS-17: what gets SLVERR. -/
theorem test_bus_slverr :
    busWord State.reset 0x014 = none ∧ busWord State.reset 0x1000 = none ∧ busWord State.reset 0x10000002 = none ∧
    busWord State.reset 0x80000000 = none ∧ (busWrite 0x20000000 .word 1 State.reset).2 = .slverr ∧
    busRead 0x000 .half State.reset = .read .slverr 0 := by decide +kernel

/-- A step with a host transaction next: the write of DESC_W takes effect and is answered, and the read that follows sees it (R70, R273). -/
theorem test_step_host :
    ((nextOf (step { State.reset with inputs := [.host (.write 0x040 .word 5), .host (.read 0x040 .word)] })).bind
      (fun t => nextOf (step t))).map (fun t => (t.regs.width.toNat, t.inputs, t.replies))
      = some (5, [], [.read .okay 5, .write .okay]) := by decide +kernel

/-- BUS-22: little-endian lanes. -/
theorem test_bus_lanes :
    let s := (busWrite 0x10000000 .word 0x44332211 State.reset).1
    busWord s 0x10000000 = some 0x44332211 ∧ (List.range 4).map (fun a => (s.readIn a).toNat) = [0x11, 0x22, 0x33, 0x44] := by
  decide +kernel

/-- R110 and R113 at the values the rules name. -/
theorem test_host_codes :
    gainOfRational 1 1 = some 0x1000 ∧ gainOfRational 1 2 = some 0x0800 ∧ gainOfRational 16 1 = some 0xFFFF ∧
    bppOvrOf (some 17) = 31 ∧ bppOvrOf (some (-1)) = 0 ∧ bppOvrOf none = 0 := by decide +kernel

/-! ### Witnesses: for every obligation with hypotheses, states and operands that meet them -/

/-- One pending command, the engine to move. -/
def pendingState (c : Word) : State := { State.reset with pending := some c }

theorem witness_StepRunsPendingCommand :
    (∃ s c i, State.pending s = some c ∧ decodeWord c = .ok i ∧ s.inputs = []) ∧
    (∃ s c i rest, State.pending s = some c ∧ decodeWord c = .ok i ∧ s.inputs = .engine :: rest) ∧
    (∃ i, decodeTableWord 32 3 = some i) ∧ (∃ s, State.pending s = none ∧ s.inputs = []) ∧
    (∃ s rest, State.pending s = none ∧ s.inputs = .engine :: rest) ∧ (∃ s t rest, State.inputs s = .host t :: rest) :=
  ⟨⟨pendingState 4, 4, .pipe, rfl, by decide, rfl⟩,
   ⟨{ pendingState 1 with inputs := [.engine, .hardReset] }, 1, .decode, [.hardReset], rfl, by decide, rfl⟩,
   ⟨.recon, by decide⟩, ⟨State.reset, rfl, rfl⟩, ⟨{ State.reset with inputs := [.engine] }, [], rfl, rfl⟩,
   ⟨{ State.reset with inputs := [.host (.read (at_ 0x028) .word), .engine] }, _, [.engine], rfl⟩⟩

/-- OP = 5 and 15, and RSV = 1 and its largest value. -/
theorem witness_IllegalCommandCompletesWithCode5 :
    (∀ c, (pendingState c).pending = some c ∧ (pendingState c).inputs = []) ∧
    (∀ c, { pendingState c with inputs := [Input.engine] }.pending = some c) ∧
    5 ≤ (5 : Word).toNat % 16 ∧ 5 ≤ (15 : Word).toNat % 16 ∧ (16 : Word).toNat / 16 ≠ 0 ∧ (0xFFFFFFF0 : Word).toNat / 16 ≠ 0 :=
  ⟨fun _ => ⟨rfl, rfl⟩, fun _ => rfl, by decide, by decide, by decide, by decide⟩

theorem witness_EngineStepReportsCompletion : EngineRuns (pendingState 3) 3 ∧
    EngineRuns { pendingState 3 with inputs := [.engine, .hardReset] } 3 :=
  ⟨⟨rfl, .inl rfl⟩, ⟨rfl, .inr ⟨_, rfl⟩⟩⟩

theorem witness_NopOnlyReportsCompletion : ∃ s : State, s.regs.doneIe = true :=
  ⟨{ State.reset with regs := { Regs.reset with doneIe := true } }, rfl⟩

/-- DS-29: an input shorter than the exact length. -/
theorem witness_ReqLenRegisterSaturates : (descState 4 2 3 17 []).regs.inLen.toNat <
    (descState 4 2 3 17 []).regs.header.toNat + (descState 4 2 3 17 []).regs.height.toNat * (readReg .stride (descState 4 2 3 17 [])).toNat := by
  decide +kernel

theorem witness_RowBytesCountPartialGroups : ∃ w : Nat, w ≤ 65535 := ⟨65535, le_refl _⟩

/-- ENC = 5 and 7. -/
theorem witness_UnmatchedEncodingNeverDecodes : ∀ e ∈ [(5 : BitVec 3), 7],
    5 ≤ (descState 4 1 e 0 []).regs.enc.toNat ∧ (descState 4 1 e 0 []).regs.bppOvr = 0 := by decide

/-- Every clause: a zero and a too large dimension, an override of 17 and no layout, a length one short, and no error. -/
theorem witness_DecodeReportsFirstFailedCheck :
    [descCheck Config.params (descState 0 1 0 0 [0]).regs, descCheck Config.params (descState 65 1 0 0 [0]).regs,
     descCheck Config.params (descState 4 1 0 17 [0]).regs, descCheck Config.params (descState 4 1 4 0 [0]).regs,
     descCheck Config.params (descState 2 1 0 0 [0]).regs, descCheck Config.params (descState 1 1 0 0 [0]).regs]
    = [some .invalidDimension, some .invalidDimension, some .unsupportedEncoding, some .unsupportedEncoding, some .truncatedInput, none] := by
  decide +kernel

/-- 3 × 1 raw8: U8-1 cut short. -/
theorem ready_raw8 : DecodeReady .raw8 (descState 3 1 0 0 [0x00, 0x01, 0x80]) := by constructor <;> decide +kernel

/-- U10-2: a full group and a partial one. -/
theorem ready_raw10 : DecodeReady .raw10 (descState 6 1 1 0 [0xFF, 0x00, 0xAA, 0x55, 0x67, 0x48, 0xF0, 0x03]) := by
  constructor <;> decide +kernel

/-- U12-2: a full group and a partial one. -/
theorem ready_raw12 : DecodeReady .raw12 (descState 3 1 2 0 [0xFF, 0x80, 0x0F, 0x7F, 0x0F]) := by constructor <;> decide +kernel

/-- U16-3: header, padding, big-endian. -/
theorem ready_raw16 : DecodeReady .raw16 (paddedState 2 1 3 2 0 1 true [0xAA, 0xBB, 0x12, 0x34, 0x56, 0x78, 0xCC]) := by
  constructor <;> decide +kernel

/-- The largest descriptor the parameters admit, with the input just long enough (DS-25). -/
theorem ready_largest : DecodeReady .raw8 { State.reset with regs := { Regs.reset with width := 64, height := 64, enc := 0, inLen := 4096 } } := by
  constructor <;> decide +kernel

theorem witness_DecodeCompletesAndKeepsTheRest : ∃ s L, DecodeReady L s := ⟨_, _, ready_largest⟩
theorem witness_DecodeRaw8Samples : ∃ s, DecodeReady .raw8 s := ⟨_, ready_raw8⟩
theorem witness_DecodeRaw10Samples : ∃ s, DecodeReady .raw10 s := ⟨_, ready_raw10⟩
theorem witness_DecodeRaw12Samples : ∃ s, DecodeReady .raw12 s := ⟨_, ready_raw12⟩
theorem witness_DecodeRaw16Samples : ∃ s, DecodeReady .raw16 s := ⟨_, ready_raw16⟩

/-- U16-5: a sample above 2^12 - 1, and SATF set after it. -/
theorem witness_SatfMarksOverRangeSamples : ∃ s L, DecodeReady L s ∧
    (∃ r c, r < s.regs.height.toNat ∧ c < s.regs.width.toNat ∧ 2 ^ s.regs.effBpp - 1 < s.rawSample L r c) ∧
    planeAfter .decode 1 s = some (0, true, [65535]) :=
  ⟨descState 1 1 3 12 [0xFF, 0x1F], .raw16, by constructor <;> decide +kernel, ⟨0, 0, by decide +kernel⟩, by decide +kernel⟩

/-- Both ends of the depths. -/
theorem witness_RescaleNeverTies : ∀ bpp ∈ [1, 16], 1 ≤ bpp ∧ bpp ≤ 16 := by decide

/-- Both ends of the raw range of a layout, and a descriptor with no override. -/
theorem witness_RawRangesAndMonotoneRescale : (∃ raw raw' : Nat, raw ≤ raw' ∧ raw' ≤ 2 ^ 8 - 1 ∧ raw = 0 ∧ raw' = 255) ∧
    (descState 1 1 2 0 []).regs.bppOvr = 0 ∧ (descState 1 1 2 0 []).regs.layout = some .raw12 := by
  refine ⟨⟨0, 255, by decide⟩, by decide, by decide⟩

theorem ready_raw10_inv : (descState 6 1 1 0 [0xFF, 0x00, 0xAA, 0x55, 0x67, 0x48, 0xF0, 0x03]).Inv where
  params := params_ok
  canonical := ⟨by decide +kernel, by decide, by intro role; cases role <;> decide, by decide⟩
  inside := ⟨by decide +kernel, by decide, by intro role; cases role <;> decide, by decide⟩
  draws := ⟨by decide, by decide, by intro role; cases role <;> decide, by decide⟩
  geometry := by constructor <;> decide +kernel
  flags := by constructor <;> decide

theorem witness_DecodeReadsStayInBounds : ∃ s L r c, s.Inv ∧ DecodeReady L s ∧
    r < s.regs.height.toNat ∧ c < s.regs.width.toNat ∧ ∃ other : Nat → Byte, other ≠ s.readIn ∧
      ∀ k, k < rowBytes s.regs.width.toNat (some L) → other (s.regs.rowBase r + k) = s.readIn (s.regs.rowBase r + k) := by
  refine ⟨_, _, 0, 5, ready_raw10_inv, ready_raw10, by decide, by decide,
    fun a => if a < 8 then (descState 6 1 1 0 [0xFF, 0x00, 0xAA, 0x55, 0x67, 0x48, 0xF0, 0x03]).readIn a
      else (descState 6 1 1 0 [0xFF, 0x00, 0xAA, 0x55, 0x67, 0x48, 0xF0, 0x03]).readIn a + 1, fun h => ?_, fun k hk => ?_⟩
  · have h8 := congrFun h 8
    simp only [show ¬(8 < 8) by decide, if_false] at h8
    exact absurd h8 (by generalize State.readIn _ 8 = b; revert b; decide)
  · have hb : rowBytes (descState 6 1 1 0 [0xFF, 0x00, 0xAA, 0x55, 0x67, 0x48, 0xF0, 0x03]).regs.width.toNat (some .raw10) = 8 := by decide
    have hr : (descState 6 1 1 0 [0xFF, 0x00, 0xAA, 0x55, 0x67, 0x48, 0xF0, 0x03]).regs.rowBase 0 = 0 := by decide
    rw [hb] at hk
    simp only [hr, Nat.zero_add, hk, if_true]

/-- The ignored low bits of the partial group (2 used of the last byte), as in U10-3, and another header. -/
theorem witness_DecodeIgnoresUnusedBytes : ∃ (s s' : State) (L : Layout), DecodeReady L s ∧ s'.regs = s.regs ∧ s'.params = s.params ∧ s'.inMem ≠ s.inMem ∧
    ∀ r k, r < s.regs.height.toNat → k < rowBytes s.regs.width.toNat (some L) →
      (s'.readIn (s.regs.rowBase r + k)).toNat % 2 ^ usedBits L s.regs.width.toNat k
        = (s.readIn (s.regs.rowBase r + k)).toNat % 2 ^ usedBits L s.regs.width.toNat k := by
  refine ⟨paddedState 1 1 1 1 0 0 false [0xAA, 0xFF, 0x03], paddedState 1 1 1 1 0 0 false [0xBB, 0xFF, 0xF7], .raw10,
    by constructor <;> decide +kernel, by decide +kernel, by decide +kernel, by decide +kernel, fun r k hr hk => ?_⟩
  have hr' : r < 1 := hr
  have hk' : k < 2 := hk
  interval_cases r
  interval_cases k <;> decide +kernel

theorem witness_AllZeroInputGivesZeroPlane : ∃ s L, DecodeReady L s ∧
    ∀ r k, r < s.regs.height.toNat → k < rowBytes s.regs.width.toNat (some L) → s.readIn (s.regs.rowBase r + k) = 0 := by
  refine ⟨descState 1 1 1 0 [0, 0], .raw10, by constructor <;> decide +kernel, fun r k hr hk => ?_⟩
  have hr' : r < 1 := hr
  have hk' : k < 2 := hk
  interval_cases r
  interval_cases k <;> decide +kernel

/-- BAYER = 4 and 7 with a plane, and no plane. -/
theorem witness_SplitReportsFirstFailedCheck : State.reset.regs.planeV = false ∧ ∀ b ∈ [(4 : BitVec 3), 7],
    (planeState 4 4 b).regs.planeV = true ∧ 4 ≤ (planeState 4 4 b).regs.bayer.toNat := by decide +kernel

/-- Every order. -/
theorem witness_SplitSendsQuadrantsToRoles : ∀ b ∈ [(0 : BitVec 3), 1, 2, 3],
    (planeState 5 3 b).regs.planeV = true ∧ (planeState 5 3 b).regs.bayer.toNat < 4 ∧ (planeState 5 3 b).regs.bayer = b := by decide +kernel

theorem witness_SplitCompletesAndKeepsTheRest : (planeState 1 1 3).regs.planeV = true ∧ (planeState 1 1 3).regs.bayer.toNat < 4 := by
  decide +kernel

theorem witness_SplitGeometryIgnoresOrder :
    let s := planeState 4 4 0
    let s' := planeState 4 4 3
    s.regs.planeV = true ∧ bayerOrderOf s.regs.bayer = some .grbg ∧ bayerOrderOf s'.regs.bayer = some .gbrg ∧
      s' = { s with regs := { s.regs with bayer := s'.regs.bayer } } := ⟨rfl, by decide, by decide, rfl⟩

/-- A valid plane, its memories canonical and inside, meets the invariant. -/
theorem planeState_inv : (planeState 2 2 1).Inv where
  params := params_ok
  canonical := ⟨by decide, by decide +kernel, by intro role; cases role <;> decide, by decide⟩
  inside := ⟨by decide, by decide +kernel, by intro role; cases role <;> decide, by decide⟩
  draws := ⟨by decide, by decide, by intro role; cases role <;> decide, by decide⟩
  geometry := by constructor <;> decide
  flags := by constructor <;> decide

/-- A plane element beyond the extent differs. -/
theorem witness_SplitStaysInThePlane : ∃ s s' : State, s.Inv ∧ s' = { s with plane := s'.plane } ∧ s'.plane ≠ s.plane ∧
    ∀ i, i < s.regs.planeW.toNat * s.regs.planeH.toNat → s'.readPlane i = s.readPlane i := by
  refine ⟨planeState 2 2 1, { planeState 2 2 1 with plane := filled [0, 1, 2, 3, 9] }, planeState_inv, rfl, by decide +kernel, fun i hi => ?_⟩
  have hi' : i < 4 := hi
  interval_cases i <;> decide +kernel

theorem witness_ReconNotReady : State.reset.regs.chV = false := by decide

/-- Every mode, at one row or column and at more. -/
theorem witness_ReconBoundaryModes : ∀ e ∈ [Edge.zero, .crop, .full],
    (chState 3 2 [] 0 0 0 false e).regs.chV = true ∧ (chState 3 2 [] 0 0 0 false e).regs.edge = e ∧
    (chState 1 1 [] 0 0 0 false e).regs.chV = true ∧ (chState 1 1 [] 0 0 0 false e).regs.edge = e := by decide

theorem witness_ReconCompletesAndKeepsTheRest : (chState 0 2 [] 0 0 0 true .crop).regs.chV = true := by decide

theorem witness_GainOneTakesHighBytes :
    let s := chState 1 1 [0x7F80] 0x7F00 0x7F00 0x7F7F false .full
    s.regs.chV = true ∧ s.regs.gainR = 0x1000 ∧ s.regs.gainG = 0x1000 ∧ s.regs.gainB = 0x1000 ∧
      s.regs.rnd = false := by decide

/-- The code a command ends with. -/
def codeAfter (i : Instr) (s : State) : Option Nat := (nextOf (exec i s)).map fun t => t.regs.errcode.toNat

/-- Every way PIPE ends: at DECODE, at SPLIT, and after RECON. -/
theorem witness_PipeIsItsStagesInOrder :
    codeAfter .decode State.reset = some 1 ∧ codeAfter .decode (pipeState 4) = some 0 ∧
    (nextOf (exec .decode (pipeState 4))).bind (codeAfter .split) = some 3 ∧
    (nextOf (exec .decode (pipeState 1))).bind (codeAfter .split) = some 0 := by decide +kernel

theorem ready_pipe (b : BitVec 3) : DecodeReady .raw8 (pipeState b) := by
  constructor <;> first | rfl | (revert b; decide +kernel)

theorem witness_PipeOutcomes :
    (∃ s L, DecodeReady L s ∧ s.regs.bayer.toNat < 4) ∧ (∃ s L, DecodeReady L s ∧ 4 ≤ s.regs.bayer.toNat) ∧
    (∃ s, ∀ L, ¬DecodeReady L s) :=
  ⟨⟨pipeState 3, _, ready_pipe 3, by decide⟩, ⟨pipeState 4, _, ready_pipe 4, by decide⟩,
   ⟨State.reset, fun _ h => absurd h.width_pos (by decide)⟩⟩

theorem witness_PipeCompletesAndKeepsTheRest : ∃ s L, DecodeReady L s ∧ s.regs.bayer.toNat < 4 := ⟨pipeState 0, _, ready_pipe 0, by decide⟩

theorem witness_CommandsAreRepeatable : ∃ i s t, exec i s = .next t ∧ t ≠ s := ⟨.nop, State.reset, _, rfl, by decide⟩

theorem witness_FailedStageWritesNoOutput :
    codeAfter .decode State.reset = some 1 ∧ codeAfter .split State.reset = some 6 ∧ codeAfter .recon State.reset = some 6 := by decide +kernel

/-- Idle and busy. -/
theorem witness_AcceptanceOfACommand : State.reset.busy = false ∧ (pendingState 0).busy = true := by decide

/-- Refused: a write to ID, and a read of no window. -/
theorem witness_RefusedTransactionChangesNothing :
    (busWrite 0 .word 0 State.reset).2 = .slverr ∧ busRead 0x80000000 .word State.reset = .read .slverr 0 := by decide +kernel

/-- A narrow write to CTRL while busy, misaligned and unlisted reads of the REG window, the first and last words of a window, and one
beyond it. -/
theorem witness_AddressMapAnswersWhatIsImplemented : State.reset.params.WellFormed ∧ State.reset.busy = false ∧
    (pendingState 1).params.WellFormed ∧ (pendingState 1).busy = true ∧ AccessSize.half ≠ .word ∧ (0x029 : Word).toNat % 4 ≠ 0 ∧
    0x02C ∈ listedOffsets ∧ 0x034 ∉ listedOffsets ∧
    Implemented Config.params 0x10000000 ∧ Implemented Config.params 0x10000FFC ∧ ¬Implemented Config.params 0x10001000 := by
  refine ⟨params_ok, rfl, params_ok, rfl, by decide, by decide, by decide, by decide, .inr (.inl (by decide)), .inr (.inl (by decide)), ?_⟩
  rintro (h | h | h | ⟨k, -, h, -⟩ | h)
  · exact absurd h (by decide)
  · exact absurd h (by decide)
  · exact absurd h.1 (by decide)
  · omega
  · exact absurd h.1 (by decide)

theorem witness_RegisterAccesses : Reg.id ∈ readOnlyRegs ∧ Reg.rgbH ∈ readOnlyRegs ∧ Reg.ctrl ∉ readOnlyRegs ∧ Reg.reconCtrl ∉ readOnlyRegs ∧
    State.reset.busy = false ∧ State.reset.params.WellFormed := ⟨by decide, by decide, by decide, by decide, rfl, params_ok⟩

theorem witness_ReservedBitsReadZero : State.reset.busy = false ∧ (Reg.descFmt, 0x171F7) ∈ plainRegs := by decide

theorem witness_InLenIsClamped : State.reset.busy = false := by decide

theorem witness_ReconSettingsInvalidatePreview : State.reset.busy = false := by decide

theorem witness_StatusFieldsAndWriteOneToClear : ∃ k : Nat, 8 ≤ k := ⟨8, by decide⟩

/-- An idle block with irq up. -/
theorem witness_IrqFallsWhenAcknowledged :
    let s : State := { State.reset with regs := { Regs.reset with done := true, doneIe := true, err := true, errIe := true, errcode := 5 } }
    s.irq = true ∧ s.busy = false := by decide

/-- A window address, and an address that is none of the three registers. -/
theorem witness_BusyBlockRefusesAccesses : (pendingState 1).busy = true ∧ 0x10000000 ≤ (0x10000000 : Word).toNat ∧
    at_ 0x040 ≠ at_ 0x020 ∧ at_ 0x040 ≠ at_ 0x028 ∧ at_ 0x040 ≠ at_ 0x030 := by decide

/-- The first word and the last. -/
theorem witness_InWindowIsLittleEndian : State.reset.params.WellFormed ∧ State.reset.busy = false ∧
    0 < State.reset.params.inSize / 4 ∧ 1023 < State.reset.params.inSize / 4 := ⟨params_ok, rfl, by decide, by decide⟩

/-- The last word of each window, and parameters whose last words are half empty (BUS-18). -/
theorem witness_OutputWindowPacking : State.reset.params.WellFormed ∧ State.reset.busy = false ∧
    2047 < (State.reset.params.np + 1) / 2 ∧ 511 < (State.reset.params.nc + 1) / 2 ∧ 1023 < State.reset.params.nc ∧
    4 < (Params.np { maxW := 3, maxH := 3, inSize := 16 } + 1) / 2 ∧ ¬2 * 4 + 1 < Params.np { maxW := 3, maxH := 3, inSize := 16 } :=
  ⟨params_ok, rfl, by decide, by decide, by decide, by decide, by decide⟩

/-- The smallest parameters and log 1's. -/
theorem witness_RegistersAfterReset :
    Params.WellFormed { maxW := 1, maxH := 1, inSize := 4 } ∧ Config.params.WellFormed := ⟨by constructor <;> decide, params_ok⟩

/-- A write of 0, a reset while idle, a reset while busy. -/
theorem witness_SoftResetKeepsIn : (0 : Word).getLsbD 0 = false ∧ (1 : Word).getLsbD 0 = true ∧ State.reset.busy = false ∧
    (pendingState 1).busy = true := by decide

theorem witness_HardwareResetForgetsAll : ∃ s rest, State.inputs s = .hardReset :: rest :=
  ⟨{ pendingState 4 with inputs := [.hardReset] }, [], rfl⟩

/-- The validity bits of a state after a step. -/
def validAfterStep (s : State) : Option (Bool × Bool × Bool) := (nextOf (step s)).map fun t => (t.regs.planeV, t.regs.chV, t.regs.rgbV)

/-- Each bit rises somewhere. -/
theorem witness_ValidityRisesOnlyByItsStage :
    validAfterStep { pipeState 1 with pending := some 1 } = some (true, false, false) ∧
    validAfterStep { planeState 2 2 1 with pending := some 2 } = some (true, true, false) ∧
    validAfterStep { chState 1 1 [5] 6 7 8 true .full with pending := some 3 } = some (true, true, true) := by decide +kernel

/-- IN changed by the host, PLANE by DECODE, CH_R by SPLIT, RGB by RECON. -/
theorem witness_MemoriesChangeOnlyByTheirWriter :
    (nextOf (step { State.reset with inputs := [.host (.write 0x10000000 .word 1)] })).map (fun t => decide (t.inMem = State.reset.inMem)) = some false ∧
    (nextOf (step { pipeState 1 with pending := some 1 })).map (fun t => decide (t.plane = State.reset.plane)) = some false ∧
    (nextOf (step { planeState 2 2 1 with pending := some 2 })).map (fun t => decide (t.chR = State.reset.chR)) = some false ∧
    (nextOf (step { chState 1 1 [5] 6 7 8 true .full with pending := some 3 })).map (fun t => decide (t.rgb = State.reset.rgb)) = some false := by
  decide +kernel

theorem witness_InvariantsAtReset : Config.params.WellFormed := params_ok

/-- The invariant holds of a state with a valid plane, and a step follows. -/
theorem witness_StepKeepsInv : ∃ s t : State, s.Inv ∧ step s = .next t := ⟨planeState 2 2 1, _, planeState_inv, rfl⟩

/-- A state with valid channels that are the split of its plane, and a step. -/
theorem witness_StepKeepsResultsValid : ∃ s t : State, s.ResultsValid ∧ s.regs.chV = true ∧ step s = .next t := by
  refine ⟨{ chState 1 1 [1] 2 3 4 true .full with
      plane := filled [1, 2, 3, 4]
      regs := { (chState 1 1 [1] 2 3 4 true .full).regs with planeW := 2, planeH := 2 } }, _,
    ⟨fun _ => ⟨.rggb, by decide, by decide, ?_⟩, fun h => absurd h (by decide)⟩, rfl, rfl⟩
  intro a b y x hy hx
  have hy' : y < 1 := hy
  have hx' : x < 1 := hx
  interval_cases y
  interval_cases x
  cases a <;> cases b <;> decide +kernel

/-- A gain of 1.0 as 7 / 7, a gain of exactly 16.0, and a negative one. -/
theorem witness_GainConversionIsExact : 0 < 7 ∧ (16 * ((1 : Nat) : Int) ≤ 16) ∧ ((-1 : Int) < 0) := by decide

end Sys2Proof.Tests
end

section
/-! What one step does to the block, said once for every statement about a whole step: the body a command word runs, what a host
transaction may change, and which of them a step is. -/

namespace Sys2Proof.Proofs

open Sys2Proof.Machine Sys2Proof.Claims Sys2Proof.Laws

/-- A flag is not both clear and set. -/
theorem elim_clear_set {b : Bool} {P : Prop} (hclear : b = false) (hset : b = true) : P :=
  absurd (hclear.symm.trans hset) Bool.false_ne_true

/-! ### The body of the pending command -/

/-- The body that the command word c runs before completion: its command's, or the error of R219 alone. -/
def commandBody (c : Word) (s : State) : State × Option Err :=
  match decodeWord c with
  | .ok i => bodyOf i s
  | .error _ => (s, some .illegalCommand)

/-- With a command pending, the engine's turn runs its body and completes (R216). -/
theorem engineStep_pending {s : State} {c : Word} (hp : s.pending = some c) :
    engineStep s = .next (complete (commandBody c s).2 (commandBody c s).1) := by
  rcases engineStep_cases s with ⟨hn, -⟩ | ⟨c', i, hp', hd, he⟩ | ⟨c', e, hp', hd, he⟩
  · simp [hp] at hn
  · obtain rfl : c = c' := Option.some.inj (hp.symm.trans hp')
    simp [he, commandBody, hd]
  · obtain rfl : c = c' := Option.some.inj (hp.symm.trans hp')
    simp [he, commandBody, hd]

/-- A word is its two fields side by side (R100). -/
theorem fieldRsv_append_fieldOp (c : Word) : fieldRsv c ++ fieldOp c = c := by
  ext k hk
  simp only [fieldRsv, fieldOp, BitVec.getElem_append, BitVec.getElem_extractLsb']
  split
  · rw [Nat.zero_add, BitVec.getLsbD_eq_getElem]
  · rw [Nat.add_sub_cancel' (by omega), BitVec.getLsbD_eq_getElem]

/-- Only its own word decodes to a command (R101). -/
theorem eq_encode_of_decodeWord {c : Word} {i : Instr} (h : decodeWord c = .ok i) : c = encode i := by
  unfold decodeWord at h
  split at h
  · cases h
  rename_i hrsv
  have hop : fieldOp c = opcodeOf i := by
    repeat' split at h
    all_goals cases h
    all_goals assumption
  rw [← fieldRsv_append_fieldOp c, not_not.mp hrsv, hop]
  rfl

/-- What a command word runs: a stage or all three under its own word (R101), or nothing but its completion. -/
theorem commandBody_cases (c : Word) (s : State) :
    (∃ e, commandBody c s = (s, e)) ∨ (c = 1 ∧ commandBody c s = decodeBody s) ∨ (c = 2 ∧ commandBody c s = splitBody s) ∨
    (c = 3 ∧ commandBody c s = reconBody s) ∨ (c = 4 ∧ commandBody c s = pipeBody s) := by
  cases hd : decodeWord c with
  | error e => exact .inl ⟨some .illegalCommand, by simp only [commandBody, hd]⟩
  | ok i =>
    have hb : commandBody c s = bodyOf i s := by simp only [commandBody, hd]
    have hc := eq_encode_of_decodeWord hd
    cases i with
    | nop => exact .inl ⟨_, hb⟩
    | decode => exact .inr (.inl ⟨hc, hb⟩)
    | split => exact .inr (.inr (.inl ⟨hc, hb⟩))
    | recon => exact .inr (.inr (.inr (.inl ⟨hc, hb⟩)))
    | pipe => exact .inr (.inr (.inr (.inr ⟨hc, hb⟩)))

/-! ### What a change of registers may leave -/

/-- From g to g' no result is claimed anew: each of CH_V and RGB_V that is still set has what it speaks of unchanged among the registers
(R27, R49). -/
structure ClaimsNoResult (g g' : Regs) : Prop where
  planeW : g'.planeW = g.planeW
  planeH : g'.planeH = g.planeH
  chW : g'.chW = g.chW
  chH : g'.chH = g.chH
  rgbW : g'.rgbW = g.rgbW
  rgbH : g'.rgbH = g.rgbH
  chV : g'.chV = true → g.chV = true
  rgbV : g'.rgbV = true → g.rgbV = true
  settings : g'.rgbV = true → g'.edge = g.edge ∧ g'.rnd = g.rnd ∧ g'.gainR = g.gainR ∧ g'.gainG = g.gainG ∧ g'.gainB = g.gainB

/-- What a host write to a register other than CTRL and CMD leaves: the flags at most fall, PLANE_V and CH_V stand, and IN_LEN fits IN
(R27, R37, R48, R49). -/
structure HostWrote (p : Params) (g g' : Regs) : Prop extends ClaimsNoResult g g' where
  errcode : g'.errcode = g.errcode
  done : g'.done = true → g.done = true
  err : g'.err = true → g.err = true
  satf : g'.satf = true → g.satf = true
  planeV_eq : g'.planeV = g.planeV
  chV_eq : g'.chV = g.chV
  inLen : g'.inLen = g.inLen ∨ g'.inLen.toNat ≤ p.inSize

/-- The value that a write to IN_LEN stores (R37). -/
theorem inLen_clamp_toNat (v : Word) (n : Nat) : (BitVec.ofNat 32 (min v.toNat n)).toNat = min v.toNat n := by
  have := v.isLt
  rw [BitVec.toNat_ofNat]
  omega

/-- A write to a register other than CTRL and CMD changes registers only, within `HostWrote`. -/
theorem hostWrote_of_writeReg {r : Reg} {d : Word} {s s' : State} (h : writeReg r d s = some s') (hctrl : r ≠ .ctrl) (hcmd : r ≠ .cmd) :
    ∃ g, s' = { s with regs := g } ∧ HostWrote s.params s.regs g := by
  cases r <;> simp only [writeReg, reduceCtorEq, Option.some.injEq] at h
  case ctrl => exact absurd rfl hctrl
  case cmd => exact absurd rfl hcmd
  case inLen =>
    have hle : (BitVec.ofNat 32 (min d.toNat s.params.inSize)).toNat ≤ s.params.inSize := by
      rw [inLen_clamp_toNat]
      exact Nat.min_le_right _ _
    exact ⟨_, h.symm, ⟨by constructor <;> simp, rfl, id, id, id, rfl, rfl, .inr hle⟩⟩
  all_goals
    refine ⟨_, h.symm, ?_⟩
    constructor
    constructor
  all_goals simp +contextual [Regs.clearStatus, Regs.invalidateRgb]

/-! ### What a host transaction does to the block -/

/-- A soft reset while idle writes no memory (R266). -/
theorem softReset_of_idle {s : State} (hp : s.pending = none) : softReset s = s.resetRegs := by simp [softReset, hp]

/-- A soft reset that abandons a command makes a new draw of the output memories (R266). -/
theorem softReset_of_pending {s : State} {c : Word} (hp : s.pending = some c) : softReset s = s.resetRegs.drawOutputs := by
  simp [softReset, hp]

/-- The ways a transaction x can change a state (R70, R74, R75): not at all, or as an accepted write to CTRL, to CMD, to another register or
to a word of IN. -/
inductive HostEffect (x : Transaction) (s : State) : State → Prop
  | none : HostEffect x s s
  | softReset (d : Word) (hbit : d.getLsbD 0 = true) (hx : x = .write (at_ 0x020) .word d) : HostEffect x s (softReset s)
  | accept (c : Word) : HostEffect x s (accept c s)
  | regs (g : Regs) (hg : HostWrote s.params s.regs g) : HostEffect x s { s with regs := g }
  | inWord (addr d : Word) (k : Nat) (hx : x = .write addr .word d) (haddr : 0x10000000 ≤ addr.toNat ∧ addr.toNat < 0x20000000)
      (hk : k < s.params.inSize / 4) : HostEffect x s (writeInWord k d s)

/-- A word of IN is met only in its own window (R72). -/
theorem addr_of_target_inWord {p : Params} {addr : Word} {size : AccessSize} {k : Nat} (h : target p addr size = some (.inWord k)) :
    size = .word ∧ (0x10000000 ≤ addr.toNat ∧ addr.toNat < 0x20000000) ∧ k < p.inSize / 4 := by
  obtain ⟨hs, -, hw⟩ := target_some h
  rcases windowTarget_cases hw with ⟨-, r, hr, -⟩ | ⟨hw1, hk, hlt⟩ | h | h | h | h | h | h
  · exact absurd hr (by simp)
  · obtain rfl := Target.inWord.inj hk
    exact ⟨hs, by omega, hlt⟩
  all_goals exact absurd h.2.1 (by simp)

/-- Every transaction has one of these effects. -/
theorem hostEffect_transact (x : Transaction) (s : State) : HostEffect x s (transact x s).1 := by
  cases x with
  | read addr size => exact .none
  | write addr size d =>
    show HostEffect _ s (busWrite addr size d s).1
    rcases busWrite_cases addr size d s with h | ⟨t, s', ht, -, hw, h⟩ <;> rw [h]
    · exact .none
    cases t with
    | inWord k =>
      obtain ⟨rfl, haddr, hk⟩ := addr_of_target_inWord ht
      obtain rfl : writeInWord k d s = s' := Option.some.inj hw
      exact .inWord addr d k rfl haddr hk
    | reg r =>
      obtain ⟨rfl, rfl⟩ := addr_of_target_reg ht
      by_cases hctrl : r = .ctrl
      · subst hctrl
        obtain rfl : (if d.getLsbD 0 then softReset s else s) = s' := Option.some.inj hw
        split
        case isTrue hbit => exact .softReset d hbit rfl
        case isFalse => exact .none
      by_cases hcmd : r = .cmd
      · subst hcmd
        obtain rfl : accept d s = s' := Option.some.inj hw
        exact .accept d
      obtain ⟨g, rfl, hg⟩ := hostWrote_of_writeReg hw hctrl hcmd
      exact .regs g hg
    | planeWord k => cases hw
    | chWord role k => cases hw
    | rgbWord k => cases hw

/-! ### What a step does -/

/-- The state with its oldest input taken off, which the step then acts on (log 2). -/
def takeInput (s : State) : State := { s with inputs := s.inputs.tail }

/-- The ways a step can change a state (R10, R86): the engine's turn with nothing pending, its turn with a command, a host transaction whose
answer is kept, or the hardware reset. -/
inductive StepEffect (s : State) : State → Prop
  | idle : StepEffect s (takeInput s)
  | command (c : Word) (hrun : EngineRuns s c) :
      StepEffect s (complete (commandBody c (takeInput s)).2 (commandBody c (takeInput s)).1)
  | host (x : Transaction) (rest : List Input) (hin : s.inputs = .host x :: rest) (t : State) (ht : HostEffect x (takeInput s) t)
      (reply : Reply) : StepEffect s { t with replies := reply :: t.replies }
  | hardReset (rest : List Input) (hin : s.inputs = .hardReset :: rest) : StepEffect s (hardReset (takeInput s))

/-- The engine's turn has one of the first two effects. -/
theorem stepEffect_engineStep (s : State) (hturn : s.inputs = [] ∨ ∃ rest, s.inputs = .engine :: rest) :
    ∃ t, engineStep (takeInput s) = .next t ∧ StepEffect s t := by
  cases hp : s.pending with
  | none => exact ⟨_, by simp [engineStep, takeInput, hp], .idle⟩
  | some c => exact ⟨_, engineStep_pending hp, .command c ⟨hp, hturn⟩⟩

/-- Every step answers a state, by one of these effects. -/
theorem step_effect (s : State) : ∃ t, step s = .next t ∧ StepEffect s t := by
  rcases step_cases s with ⟨hin, hs⟩ | ⟨rest, hin, hs⟩ | ⟨x, rest, hin, hs⟩ | ⟨rest, hin, hs⟩
  · have htake : takeInput s = s := by rw [takeInput, hin, List.tail_nil, ← hin]
    obtain ⟨t, ht, heff⟩ := stepEffect_engineStep s (.inl hin)
    exact ⟨t, by rw [hs, ← ht, htake], heff⟩
  · have htake : takeInput s = { s with inputs := rest } := by simp [takeInput, hin]
    rw [hs, ← htake]
    exact stepEffect_engineStep s (.inr ⟨rest, hin⟩)
  · have htake : takeInput s = { s with inputs := rest } := by simp [takeInput, hin]
    rw [hs, ← htake, hostStep_eq]
    exact ⟨_, rfl, .host x rest hin _ (hostEffect_transact x _) _⟩
  · have htake : takeInput s = { s with inputs := rest } := by simp [takeInput, hin]
    rw [hs, ← htake]
    exact ⟨_, rfl, .hardReset rest hin⟩

/-- The effect of the step that answers t. -/
theorem stepEffect_of_step {s t : State} (h : step s = .next t) : StepEffect s t := by
  obtain ⟨t', ht', heff⟩ := step_effect s
  obtain rfl : t' = t := Host.Outcome.next.inj (ht'.symm.trans h)
  exact heff

end Sys2Proof.Proofs
end

section
/-! The invariant of the block, taken apart into what each stage of a command keeps and what acceptance and completion set. -/

namespace Sys2Proof.Proofs

open Sys2Proof.Machine Sys2Proof.Claims Sys2Proof.Laws

/-! ### One memory -/

/-- One memory of n elements meets its share of the invariant: canonical, inside its bounds, from one of the first `draws` draws. -/
structure MemorySound {α : Type} (n draws : Nat) (m : Memory α) : Prop where
  wf : m.wf
  below : m.below n
  drawn : m.gen < draws

section Memory

variable {α : Type} {n draws : Nat} {m : Memory α}

theorem memorySound_fresh {g : Nat} (hg : g < draws) : MemorySound n draws (Memory.fresh g : Memory α) :=
  ⟨wf_fresh g, below_fresh n g, hg⟩

theorem MemorySound.write (h : MemorySound n draws m) (i : Nat) (hi : i < n) (v : α) : MemorySound n draws (m.write i v) :=
  ⟨wf_write m i v h.wf, below_write n m i v hi h.below, h.drawn⟩

theorem MemorySound.overwrite (h : MemorySound n draws m) {k : Nat} (hk : k ≤ n) (value : Nat → α) :
    MemorySound n draws (m.overwrite k value) :=
  ⟨wf_overwrite m k value h.wf, below_overwrite n m k value hk h.below, h.drawn⟩

/-- A new draw elsewhere makes no memory unsound. -/
theorem MemorySound.afterDraw (h : MemorySound n draws m) : MemorySound n (draws + 1) m :=
  ⟨h.wf, h.below, h.drawn.trans (Nat.lt_succ_self draws)⟩

end Memory

/-! ### The invariant in two parts -/

/-- What every stage keeps: all of `State.Inv` but what acceptance and completion set. -/
structure StageInv (s : State) : Prop where
  params : s.params.WellFormed
  inMem : MemorySound s.params.inSize s.draws s.inMem
  plane : MemorySound s.params.np s.draws s.plane
  ch : ∀ role, MemorySound s.params.nc s.draws (s.ch role)
  rgb : MemorySound s.params.nc s.draws s.rgb
  geometry : s.GeometryFits
  satf_plane : s.regs.satf = true → s.regs.planeV = true
  ch_plane : s.regs.chV = true → s.regs.planeV = true
  rgb_ch : s.regs.rgbV = true → s.regs.chV = true

/-- What acceptance and completion set, and the host may clear: the part of `State.FlagsFit` about DONE, ERR and ERRCODE. -/
structure CodesFit (busy : Bool) (g : Regs) : Prop where
  code_legal : g.errcode.toNat ≤ 6
  busy_clear : busy = true → g.done = false ∧ g.err = false ∧ g.satf = false ∧ g.errcode = 0
  err_coded : g.err = true → g.errcode ≠ 0

theorem inv_iff (s : State) : s.Inv ↔ StageInv s ∧ CodesFit s.busy s.regs := by
  constructor
  · rintro ⟨hp, hc, hi, hd, hg, hf⟩
    exact ⟨⟨hp, ⟨hc.inMem, hi.inMem, hd.inMem⟩, ⟨hc.plane, hi.plane, hd.plane⟩,
      fun role => ⟨hc.ch role, hi.ch role, hd.ch role⟩, ⟨hc.rgb, hi.rgb, hd.rgb⟩, hg, hf.satf_plane, hf.ch_plane, hf.rgb_ch⟩, ⟨hf.code_legal, hf.busy_clear, hf.err_coded⟩⟩
  · rintro ⟨h, hf⟩
    exact ⟨h.params, ⟨h.inMem.wf, h.plane.wf, fun role => (h.ch role).wf, h.rgb.wf⟩,
      ⟨h.inMem.below, h.plane.below, fun role => (h.ch role).below, h.rgb.below⟩,
      ⟨h.inMem.drawn, h.plane.drawn, fun role => (h.ch role).drawn, h.rgb.drawn⟩, h.geometry,
      ⟨hf.code_legal, hf.busy_clear, hf.err_coded, h.satf_plane, h.ch_plane, h.rgb_ch⟩⟩

/-- Neither part speaks of the schedule or of the answers given. -/
theorem StageInv.withQueues {s : State} (h : StageInv s) (inputs : List Input) (replies : List Reply) :
    StageInv { s with inputs := inputs, replies := replies } :=
  { h with geometry := { h.geometry with } }

/-! ### The stages of a command -/

/-- A descriptor that passes its checks fits the parameters (R135, R137). -/
theorem size_le_of_descCheck {p : Params} {g : Regs} (h : descCheck p g = none) : g.width.toNat ≤ p.maxW ∧ g.height.toNat ≤ p.maxH := by
  obtain ⟨hdim, -, -⟩ := (descCheck_eq_none p g).mp h
  simp only [not_or, not_lt] at hdim
  obtain ⟨-, -, hw, hh⟩ := hdim
  exact ⟨hw, hh⟩

/-- A DECODE that fails clears the validity bits; SATF is clear since the acceptance (R48, R215). One that succeeds writes WIDTH * HEIGHT
elements, which PLANE has (R135). -/
theorem StageInv.decodeBody {s : State} (h : StageInv s) (hsatf : s.regs.satf = false) : StageInv (decodeBody s).1 := by
  rcases decodeBody_cases s with ⟨e, -, hb⟩ | ⟨L, hc, -, hb⟩ <;> rw [hb]
  · exact { h with
      geometry := { h.geometry with }
      satf_plane := fun hs => elim_clear_set hsatf hs
      ch_plane := id
      rgb_ch := id }
  · obtain ⟨hw, hh⟩ := size_le_of_descCheck hc
    exact { h with
      plane := h.plane.overwrite (Nat.mul_le_mul hw hh) _
      geometry := { h.geometry with planeW := hw, planeH := hh }
      satf_plane := fun _ => rfl
      ch_plane := fun _ => rfl
      rgb_ch := id }

/-- The channels a successful SPLIT writes fit their memories (R183, R185). -/
theorem StageInv.splitChannels {s : State} (h : StageInv s) (hv : s.regs.planeV = true) (o : BayerOrder) :
    StageInv (splitChannels o s) := by
  have hw : s.regs.planeW.toNat / 2 ≤ s.params.maxW / 2 := Nat.div_le_div_right h.geometry.planeW
  have hh : s.regs.planeH.toNat / 2 ≤ s.params.maxH / 2 := Nat.div_le_div_right h.geometry.planeH
  have hregs := splitChannels_regs o s
  refine ⟨by simpa using h.params, by simpa using h.inMem, by simpa using h.plane, fun role => ?_, by simpa using h.rgb, ?_, ?_, ?_, ?_⟩
  · obtain ⟨a, b, rfl⟩ := roleOf_surjective o role
    rw [ch_splitChannels]
    simpa using (h.ch (roleOf o a b)).overwrite (Nat.mul_le_mul hw hh) _
  · have hchW := splitChannels_chW o s ▸ hw
    have hchH := splitChannels_chH o s ▸ hh
    have hg := h.geometry
    constructor <;> simp only [splitChannels_params]
    case chW => exact hchW
    case chH => exact hchH
    all_goals rw [hregs]
    exacts [hg.inLen, hg.planeW, hg.planeH, hg.rgbW, hg.rgbH]
  all_goals simp [hregs, hv]

theorem StageInv.splitBody {s : State} (h : StageInv s) : StageInv (splitBody s).1 := by
  have hfail : StageInv { s with regs := s.regs.invalidateFromCh } := { h with
    geometry := { h.geometry with }
    ch_plane := fun hc => elim_clear_set rfl hc
    rgb_ch := id }
  rcases splitBody_cases s with ⟨-, hb⟩ | ⟨-, -, hb⟩ | ⟨o, hv, -, hb⟩ <;> rw [hb]
  · exact hfail
  · exact hfail
  · exact h.splitChannels hv o

/-- A successful RECON writes no more elements than a channel has, and RGB has as many (R199, R201). -/
theorem StageInv.reconBody {s : State} (h : StageInv s) : StageInv (reconBody s).1 := by
  rcases reconBody_cases s with ⟨-, hb⟩ | ⟨hv, hb⟩ <;> rw [hb]
  · exact { h with
      geometry := { h.geometry with }
      rgb_ch := fun hr => elim_clear_set rfl hr }
  · obtain ⟨hw, hh⟩ := outDims_le s.regs.edge s.regs.chW.toNat s.regs.chH.toNat
    replace hw := hw.trans h.geometry.chW
    replace hh := hh.trans h.geometry.chH
    exact { h with
      rgb := h.rgb.overwrite (Nat.mul_le_mul hw hh) _
      geometry := { h.geometry with
        rgbW := (reconPreview_rgbW s).trans_le hw
        rgbH := (reconPreview_rgbH s).trans_le hh }
      rgb_ch := fun _ => hv }

/-- PIPE keeps it because each of its stages does (R218). -/
theorem StageInv.pipeBody {s : State} (h : StageInv s) (hsatf : s.regs.satf = false) : StageInv (pipeBody s).1 := by
  rcases pipeBody_cases s with ⟨e, -, hb⟩ | ⟨e, -, -, hb⟩ | ⟨-, -, hb⟩ <;> rw [hb]
  · exact h.decodeBody hsatf
  · exact (h.decodeBody hsatf).splitBody
  · exact (h.decodeBody hsatf).splitBody.reconBody

/-- Whatever the pending word is, its body keeps it. -/
theorem StageInv.commandBody {s : State} (h : StageInv s) (hsatf : s.regs.satf = false) (c : Word) : StageInv (commandBody c s).1 := by
  rcases commandBody_cases c s with ⟨e, hb⟩ | ⟨-, hb⟩ | ⟨-, hb⟩ | ⟨-, hb⟩ | ⟨-, hb⟩ <;> rw [hb]
  · exact h
  · exact h.decodeBody hsatf
  · exact h.splitBody
  · exact h.reconBody
  · exact h.pipeBody hsatf

/-! ### Completion, host transactions and the hardware reset -/

/-- Completion makes the invariant whole: the block is idle, and the code is a legal one (R216, R235). -/
theorem inv_complete {s : State} (h : StageInv s) (e : Option Err) : (complete e s).Inv := by
  refine (inv_iff _).mpr ⟨{ h with geometry := { h.geometry with } }, codeOf_le e, fun hb => elim_clear_set rfl hb, fun he => ?_⟩
  obtain ⟨err, rfl⟩ := Option.isSome_iff_exists.mp he
  exact codeOf_some_ne err

/-- The registers after a reset (R52). -/
theorem codesFit_reset (busy : Bool) : CodesFit busy Regs.reset := by constructor <;> decide +revert

theorem geometryFits_of_reset {s : State} (h : s.regs = Regs.reset) : s.GeometryFits := by
  constructor <;> rw [h] <;> exact Nat.zero_le _

/-- A state whose registers are at reset meets the invariant as far as its memories do. -/
theorem inv_of_reset {s : State} (hregs : s.regs = Regs.reset) (hp : s.params.WellFormed) (hin : MemorySound s.params.inSize s.draws s.inMem)
    (hplane : MemorySound s.params.np s.draws s.plane) (hch : ∀ role, MemorySound s.params.nc s.draws (s.ch role))
    (hrgb : MemorySound s.params.nc s.draws s.rgb) : s.Inv := by
  refine (inv_iff s).mpr ⟨⟨hp, hin, hplane, hch, hrgb, geometryFits_of_reset hregs, ?_, ?_, ?_⟩, hregs ▸ codesFit_reset _⟩
  all_goals
    rw [hregs]
    exact id

theorem inv_softReset {s : State} (h : StageInv s) : (softReset s).Inv := by
  cases hp : s.pending with
  | none =>
    rw [softReset_of_idle hp]
    exact inv_of_reset rfl h.params h.inMem h.plane h.ch h.rgb
  | some c =>
    have hnew := Nat.lt_succ_self s.draws
    rw [softReset_of_pending hp]
    refine inv_of_reset rfl h.params h.inMem.afterDraw (memorySound_fresh hnew) (fun role => ?_) (memorySound_fresh hnew)
    cases role <;> exact memorySound_fresh hnew

theorem inv_hardReset {s : State} (h : StageInv s) : (hardReset s).Inv := by
  have hnew := Nat.lt_succ_self s.draws
  refine inv_of_reset rfl h.params (memorySound_fresh hnew) (memorySound_fresh hnew) (fun role => ?_) (memorySound_fresh hnew)
  cases role <;> exact memorySound_fresh hnew

/-- Acceptance clears what a busy block has clear (R215, R242). -/
theorem inv_accept {s : State} (h : StageInv s) (c : Word) : (accept c s).Inv := by
  refine (inv_iff _).mpr ⟨{ h with
    geometry := { h.geometry with }
    satf_plane := fun hs => elim_clear_set rfl hs }, ?_⟩
  constructor <;> simp [Regs.acceptFlags]

/-- A flag that at most falls stays clear. -/
theorem false_of_falls {f f' : Bool} (h : f' = true → f = true) (hf : f = false) : f' = false :=
  Bool.eq_false_iff.mpr (mt h (Bool.eq_false_iff.mp hf))

/-- The host's register writes keep the invariant: no flag rises, and IN_LEN is clamped (R27, R37). -/
theorem inv_hostWrote {s : State} (h : s.Inv) {g : Regs} (hg : HostWrote s.params s.regs g) : ({ s with regs := g } : State).Inv := by
  obtain ⟨hs, hc⟩ := (inv_iff s).mp h
  have hgeo := hs.geometry
  refine (inv_iff _).mpr ⟨{ hs with
    geometry := ⟨?_, ?_, ?_, ?_, ?_, ?_, ?_⟩
    satf_plane := fun hf => hg.planeV_eq.trans (hs.satf_plane (hg.satf hf))
    ch_plane := fun hf => hg.planeV_eq.trans (hs.ch_plane (hg.chV hf))
    rgb_ch := fun hf => hg.chV_eq.trans (hs.rgb_ch (hg.rgbV hf)) }, ?_, fun hb => ?_, fun he => ?_⟩
  · rcases hg.inLen with hi | hi
    · exact hi ▸ hgeo.inLen
    · exact hi
  · exact hg.planeW ▸ hgeo.planeW
  · exact hg.planeH ▸ hgeo.planeH
  · exact hg.chW ▸ hgeo.chW
  · exact hg.chH ▸ hgeo.chH
  · exact hg.rgbW ▸ hgeo.rgbW
  · exact hg.rgbH ▸ hgeo.rgbH
  · exact hg.errcode ▸ hc.code_legal
  · obtain ⟨hd, he, hsf, hcode⟩ := hc.busy_clear hb
    exact ⟨false_of_falls hg.done hd, false_of_falls hg.err he, false_of_falls hg.satf hsf, hg.errcode.trans hcode⟩
  · exact hg.errcode ▸ hc.err_coded (hg.err he)

/-- A write to a word of IN lists only bytes that exist (R75). -/
theorem inv_writeInWord {s : State} (h : s.Inv) {k : Nat} (hk : k < s.params.inSize / 4) (d : Word) : (writeInWord k d s).Inv := by
  obtain ⟨hs, hc⟩ := (inv_iff s).mp h
  have hin := (((hs.inMem.write (4 * k) (by omega) (d.extractLsb' 0 8)).write (4 * k + 1) (by omega) (d.extractLsb' 8 8)).write
    (4 * k + 2) (by omega) (d.extractLsb' 16 8)).write (4 * k + 3) (by omega) (d.extractLsb' 24 8)
  exact (inv_iff _).mpr ⟨{ hs with inMem := hin, geometry := { hs.geometry with } }, hc⟩

theorem inv_hostEffect {x : Transaction} {s t : State} (h : s.Inv) (ht : HostEffect x s t) : t.Inv := by
  have hs := ((inv_iff s).mp h).1
  cases ht with
  | none => exact h
  | softReset d _ _ => exact inv_softReset hs
  | accept c => exact inv_accept hs c
  | regs g hg => exact inv_hostWrote h hg
  | inWord addr d k _ _ hk => exact inv_writeInWord h hk d

theorem inv_withQueues {s : State} (h : s.Inv) (inputs : List Input) (replies : List Reply) :
    ({ s with inputs := inputs, replies := replies } : State).Inv := by
  obtain ⟨hs, hc⟩ := (inv_iff s).mp h
  exact (inv_iff _).mpr ⟨hs.withQueues inputs replies, hc⟩

/-- Settles O58: a step is one of the effects of `StepEffect`, and each keeps the invariant. -/
theorem stepKeepsInv : Obligations.StepKeepsInv := by
  intro s t h hstep
  have htake : (takeInput s).Inv := inv_withQueues h s.inputs.tail s.replies
  have hstage := ((inv_iff _).mp htake).1
  cases stepEffect_of_step hstep with
  | idle => exact htake
  | command c hrun =>
    have hbusy : s.busy = true := by simp [State.busy, hrun.1]
    obtain ⟨-, -, hsatf, -⟩ := h.flags.busy_clear hbusy
    exact inv_complete (hstage.commandBody hsatf c) _
  | host x rest _ t' ht' reply => exact inv_withQueues (inv_hostEffect htake ht') t'.inputs _
  | hardReset rest _ => exact inv_hardReset hstage

end Sys2Proof.Proofs
end

section
/-! What the validity bits CH_V and RGB_V promise (R27), kept by every step. -/

namespace Sys2Proof.Proofs

open Sys2Proof.Machine Sys2Proof.Claims Sys2Proof.Laws

/-! ### Changes that claim no result -/

/-- A state that claims no result keeps every promise. -/
theorem resultsValid_of_none {s : State} (hch : s.regs.chV = false) (hrgb : s.regs.rgbV = false) : s.ResultsValid :=
  ⟨fun h => elim_clear_set hch h, fun h => elim_clear_set hrgb h⟩

/-- The channels stay the split of the plane while both and their geometry stand. -/
theorem channelsSplit_congr {s t : State} {o : BayerOrder} (h : s.ChannelsSplit o) (hplane : t.plane = s.plane)
    (hch : ∀ role, t.ch role = s.ch role) (hr : ClaimsNoResult s.regs t.regs) : t.ChannelsSplit o := by
  obtain ⟨hw, hh, hquad⟩ := h
  simp only [State.ChannelsSplit, State.readCh, State.readPlane, hplane, hch, hr.planeW, hr.planeH, hr.chW, hr.chH]
  exact ⟨hw, hh, hquad⟩

/-- A pixel depends on the gains and RND among the registers (R197), a preview pixel on EDGE too (R199). -/
theorem previewPixel_congr {s t : State} (hch : ∀ role, t.ch role = s.ch role)
    (hset : t.regs.edge = s.regs.edge ∧ t.regs.rnd = s.regs.rnd ∧ t.regs.gainR = s.regs.gainR ∧ t.regs.gainG = s.regs.gainG ∧
      t.regs.gainB = s.regs.gainB) (w h y x : Nat) :
    t.previewPixel w h y x = s.previewPixel w h y x := by
  obtain ⟨hedge, hrnd, hr, hg, hb⟩ := hset
  simp only [State.previewPixel, State.pixelAt, pixelOf, State.readCh, hch, hedge, hrnd, hr, hg, hb]

/-- A change that claims no result anew, and writes no plane, channel or preview, keeps what is promised. -/
theorem resultsValid_of_claimsNoResult {s t : State} (h : s.ResultsValid) (hplane : t.plane = s.plane)
    (hch : ∀ role, t.ch role = s.ch role) (hrgb : t.rgb = s.rgb) (hr : ClaimsNoResult s.regs t.regs) : t.ResultsValid := by
  constructor
  · intro hv
    obtain ⟨o, ho⟩ := h.channels (hr.chV hv)
    exact ⟨o, channelsSplit_congr ho hplane hch hr⟩
  · intro hv
    obtain ⟨hdims, hpix⟩ := h.preview (hr.rgbV hv)
    have hset := hr.settings hv
    simp only [State.PreviewCurrent, State.readRgb, hrgb, previewPixel_congr hch hset, hset.1, hr.chW, hr.chH, hr.rgbW, hr.rgbH]
    exact ⟨hdims, hpix⟩

theorem claimsNoResult_refl (g : Regs) : ClaimsNoResult g g := by constructor <;> simp

/-! ### The stages of a command -/

/-- DECODE claims neither channels nor preview, whichever way it ends (R48). -/
theorem resultsValid_decodeBody (s : State) : (decodeBody s).1.ResultsValid := by
  rcases decodeBody_cases s with ⟨e, -, hb⟩ | ⟨L, -, -, hb⟩ <;> rw [hb] <;> exact resultsValid_of_none rfl rfl

/-- A successful SPLIT claims the channels it has just split from the plane (R180 to R183). -/
theorem resultsValid_splitChannels (o : BayerOrder) (s : State) : (splitChannels o s).ResultsValid := by
  have hregs := splitChannels_regs o s
  refine ⟨fun _ => ⟨o, ?_⟩, fun hv => by simp [hregs] at hv⟩
  have hread : (splitChannels o s).readPlane = s.readPlane := by
    funext i
    simp [State.readPlane]
  simp only [State.ChannelsSplit, splitChannels_chW, splitChannels_chH, hread]
  simp only [hregs, true_and]
  exact readCh_splitChannels o s

theorem resultsValid_splitBody (s : State) : (splitBody s).1.ResultsValid := by
  rcases splitBody_cases s with ⟨-, hb⟩ | ⟨-, -, hb⟩ | ⟨o, -, -, hb⟩ <;> rw [hb]
  · exact resultsValid_of_none rfl rfl
  · exact resultsValid_of_none rfl rfl
  · exact resultsValid_splitChannels o s

/-- A successful RECON leaves the channels and makes the preview current (R195, R200). -/
theorem resultsValid_reconPreview {s : State} (h : s.ResultsValid) : (reconPreview s).ResultsValid := by
  refine ⟨h.channels, fun _ => ⟨?_, ?_⟩⟩
  · rw [reconPreview_rgbW, reconPreview_rgbH]
    rfl
  · rw [reconPreview_rgbW, reconPreview_rgbH]
    exact fun y x hy hx => readRgb_reconPreview s y x hy hx

theorem resultsValid_reconBody {s : State} (h : s.ResultsValid) : (reconBody s).1.ResultsValid := by
  rcases reconBody_cases s with ⟨-, hb⟩ | ⟨-, hb⟩ <;> rw [hb]
  · exact ⟨h.channels, fun hv => elim_clear_set rfl hv⟩
  · exact resultsValid_reconPreview h

theorem resultsValid_pipeBody (s : State) : (pipeBody s).1.ResultsValid := by
  rcases pipeBody_cases s with ⟨e, -, hb⟩ | ⟨e, -, -, hb⟩ | ⟨-, -, hb⟩ <;> rw [hb]
  · exact resultsValid_decodeBody s
  · exact resultsValid_splitBody _
  · exact resultsValid_reconBody (resultsValid_splitBody _)

theorem resultsValid_commandBody {s : State} (h : s.ResultsValid) (c : Word) : (commandBody c s).1.ResultsValid := by
  rcases commandBody_cases c s with ⟨e, hb⟩ | ⟨-, hb⟩ | ⟨-, hb⟩ | ⟨-, hb⟩ | ⟨-, hb⟩ <;> rw [hb]
  · exact h
  · exact resultsValid_decodeBody s
  · exact resultsValid_splitBody s
  · exact resultsValid_reconBody h
  · exact resultsValid_pipeBody s

/-! ### The other steps -/

theorem resultsValid_complete {s : State} (h : s.ResultsValid) (e : Option Err) : (complete e s).ResultsValid :=
  resultsValid_of_claimsNoResult h rfl (fun role => ch_complete e s role) rfl (by constructor <;> simp [Regs.completeFlags])

theorem resultsValid_hostEffect {x : Transaction} {s t : State} (h : s.ResultsValid) (ht : HostEffect x s t) : t.ResultsValid := by
  cases ht with
  | none => exact h
  | softReset d _ _ => exact resultsValid_of_none (by rw [softReset_regs]; rfl) (by rw [softReset_regs]; rfl)
  | accept c => exact resultsValid_of_claimsNoResult h rfl (fun _ => rfl) rfl (by constructor <;> simp [Regs.acceptFlags])
  | regs g hg => exact resultsValid_of_claimsNoResult h rfl (fun _ => rfl) rfl hg.toClaimsNoResult
  | inWord addr d k _ _ _ => exact resultsValid_of_claimsNoResult h rfl (fun _ => rfl) rfl (claimsNoResult_refl s.regs)

theorem resultsValid_withQueues {s : State} (h : s.ResultsValid) (inputs : List Input) (replies : List Reply) :
    ({ s with inputs := inputs, replies := replies } : State).ResultsValid :=
  resultsValid_of_claimsNoResult h rfl (fun _ => rfl) rfl (claimsNoResult_refl s.regs)

/-- Settles O59: a step is one of the effects of `StepEffect`. Each claims no result anew, or computes the result it claims. -/
theorem stepKeepsResultsValid : Obligations.StepKeepsResultsValid := by
  intro s t h hstep
  have htake : (takeInput s).ResultsValid := resultsValid_withQueues h s.inputs.tail s.replies
  cases stepEffect_of_step hstep with
  | idle => exact htake
  | command c _ => exact resultsValid_complete (resultsValid_commandBody htake c) _
  | host x rest _ t' ht' reply => exact resultsValid_withQueues (resultsValid_hostEffect htake ht') t'.inputs _
  | hardReset rest _ => exact resultsValid_of_none rfl rfl

/-- Settles O57: at reset every memory is fresh, and no result is claimed. -/
theorem invariantsAtReset : Obligations.InvariantsAtReset := by
  intro p hp
  refine ⟨inv_of_reset rfl hp (memorySound_fresh Nat.one_pos) (memorySound_fresh Nat.one_pos) (fun role => ?_)
    (memorySound_fresh Nat.one_pos), resultsValid_of_none rfl rfl⟩
  cases role <;> exact memorySound_fresh Nat.one_pos

end Sys2Proof.Proofs
end

section
/-! Who may raise a validity bit, and who may change a memory (R48, R50). -/

namespace Sys2Proof.Proofs

open Sys2Proof.Machine Sys2Proof.Claims Sys2Proof.Laws

/-! ### The validity bits after a stage -/

/-- DECODE sets PLANE_V only where it succeeds, and clears the later bits either way (R48). -/
theorem decodeBody_validity (s : State) :
    ((decodeBody s).1.regs.planeV = true → (decodeBody s).2 = none) ∧ (decodeBody s).1.regs.chV = false ∧
    (decodeBody s).1.regs.rgbV = false := by
  rcases decodeBody_cases s with ⟨e, -, hb⟩ | ⟨L, -, -, hb⟩ <;> rw [hb]
  · exact ⟨fun h => elim_clear_set rfl h, rfl, rfl⟩
  · exact ⟨fun _ => rfl, rfl, rfl⟩

/-- SPLIT leaves PLANE_V, sets CH_V only where it succeeds, clears RGB_V, and of a valid plane can find only the order bad (R48, R180). -/
theorem splitBody_validity (s : State) :
    (splitBody s).1.regs.planeV = s.regs.planeV ∧ ((splitBody s).1.regs.chV = true ↔ (splitBody s).2 = none) ∧
    (splitBody s).1.regs.rgbV = false ∧ (s.regs.planeV = true → codeOf (splitBody s).2 ∈ [0, 3]) := by
  rcases splitBody_cases s with ⟨hv, hb⟩ | ⟨hv, -, hb⟩ | ⟨o, hv, -, hb⟩ <;> rw [hb]
  · exact ⟨rfl, by simp [Regs.invalidateFromCh], rfl, fun h => elim_clear_set hv h⟩
  · exact ⟨rfl, by simp [Regs.invalidateFromCh], rfl, fun _ => by simp [codeOf, Err.code]⟩
  · exact ⟨by rw [splitChannels_regs], by simp [splitChannels_regs], by rw [splitChannels_regs], fun _ => by simp⟩

/-- RECON leaves PLANE_V and CH_V, and succeeds exactly with valid channels, where it sets RGB_V (R48, R195). -/
theorem reconBody_validity (s : State) :
    (reconBody s).1.regs.planeV = s.regs.planeV ∧ (reconBody s).1.regs.chV = s.regs.chV ∧
    ((reconBody s).1.regs.rgbV = true → (reconBody s).2 = none) ∧ (s.regs.chV = true → (reconBody s).2 = none) := by
  rcases reconBody_cases s with ⟨hv, hb⟩ | ⟨-, hb⟩ <;> rw [hb]
  · exact ⟨rfl, rfl, fun h => elim_clear_set rfl h, fun h => elim_clear_set hv h⟩
  · exact ⟨rfl, rfl, fun _ => rfl, fun _ => rfl⟩

/-- Any validity bit after a PIPE is earned by its stage: PLANE_V stands with code 0 or 3, the other two only with code 0 (R218). -/
theorem pipeBody_validity (s : State) :
    ((pipeBody s).1.regs.planeV = true → codeOf (pipeBody s).2 ∈ [0, 3]) ∧
    ((pipeBody s).1.regs.chV = true → (pipeBody s).2 = none) ∧ ((pipeBody s).1.regs.rgbV = true → (pipeBody s).2 = none) := by
  obtain ⟨hplane, hch, hrgb⟩ := decodeBody_validity s
  obtain ⟨hplane', hch', hrgb', hcode⟩ := splitBody_validity (decodeBody s).1
  obtain ⟨-, -, -, hrecon⟩ := reconBody_validity (splitBody (decodeBody s).1).1
  rcases pipeBody_cases s with ⟨e, he, hb⟩ | ⟨e, -, he, hb⟩ | ⟨-, he, hb⟩ <;> rw [hb]
  · exact ⟨fun h => absurd (he.symm.trans (hplane h)) (Option.some_ne_none e), fun h => elim_clear_set hch h,
      fun h => elim_clear_set hrgb h⟩
  · rw [he] at hcode hch'
    exact ⟨fun h => hcode (hplane' ▸ h), hch'.mp, fun h => elim_clear_set hrgb' h⟩
  · have hok := hrecon (hch'.mpr he)
    simp [hok]

/-- A validity bit that a body leaves as it was has not risen. -/
theorem not_risen {b b' : Bool} {P : Prop} (heq : b' = b) (hclear : b = false) (hset : b' = true) : P :=
  elim_clear_set (heq.trans hclear) hset

/-- Each validity bit that rises from g to g' has its reason: the command word c is of its stage, and the error e that ends the command
is none, or for PLANE_V a later stage's (R48, R218). -/
structure RisesEarned (c : Word) (g g' : Regs) (e : Option Err) : Prop where
  plane : g.planeV = false → g'.planeV = true → WritesPlane c ∧ codeOf e ∈ [0, 3]
  ch : g.chV = false → g'.chV = true → WritesChannels c ∧ e = none
  rgb : g.rgbV = false → g'.rgbV = true → WritesRgb c ∧ e = none

theorem risesEarned_commandBody (c : Word) (s : State) : RisesEarned c s.regs (commandBody c s).1.regs (commandBody c s).2 := by
  rcases commandBody_cases c s with ⟨e, hb⟩ | ⟨hc, hb⟩ | ⟨hc, hb⟩ | ⟨hc, hb⟩ | ⟨hc, hb⟩ <;> rw [hb]
  · exact ⟨not_risen rfl, not_risen rfl, not_risen rfl⟩
  · obtain ⟨hplane, hch, hrgb⟩ := decodeBody_validity s
    exact ⟨fun _ h => ⟨.inl hc, by simp [hplane h]⟩, fun _ => by simp [hch], fun _ => by simp [hrgb]⟩
  · obtain ⟨hplane, hch, hrgb, -⟩ := splitBody_validity s
    exact ⟨not_risen hplane, fun _ h => ⟨.inl hc, hch.mp h⟩, fun _ => by simp [hrgb]⟩
  · obtain ⟨hplane, hch, hrgb, -⟩ := reconBody_validity s
    exact ⟨not_risen hplane, not_risen hch, fun _ h => ⟨.inl hc, hrgb h⟩⟩
  · obtain ⟨hplane, hch, hrgb⟩ := pipeBody_validity s
    exact ⟨fun _ h => ⟨.inr hc, hplane h⟩, fun _ h => ⟨.inr hc, hch h⟩, fun _ h => ⟨.inr hc, hrgb h⟩⟩

/-- No transaction raises a validity bit (R48, R49). -/
theorem validity_hostEffect {x : Transaction} {s t : State} (ht : HostEffect x s t) :
    (t.regs.planeV = true → s.regs.planeV = true) ∧ (t.regs.chV = true → s.regs.chV = true) ∧
    (t.regs.rgbV = true → s.regs.rgbV = true) := by
  cases ht with
  | softReset d _ _ => simp [Regs.reset]
  | regs g hg => exact ⟨fun h => hg.planeV_eq ▸ h, hg.chV, hg.rgbV⟩
  | none => exact ⟨id, id, id⟩
  | accept c => exact ⟨id, id, id⟩
  | inWord addr d k _ _ _ => exact ⟨id, id, id⟩

/-- Settles O55: of the effects of a step only a command raises a validity bit, and that is its own stage's. -/
theorem validityRisesOnlyByItsStage : Obligations.ValidityRisesOnlyByItsStage := by
  intro s
  obtain ⟨t, hstep, heff⟩ := step_effect s
  refine ⟨t, hstep, ?_⟩
  cases heff with
  | idle => exact ⟨not_risen rfl, not_risen rfl, not_risen rfl⟩
  | command c hrun =>
    obtain ⟨hplane, hch, hrgb⟩ := risesEarned_commandBody c (takeInput s)
    refine ⟨fun h h' => ⟨c, hrun, hplane h h'⟩, fun h h' => ?_, fun h h' => ?_⟩
    · obtain ⟨hw, he⟩ := hch h h'
      exact ⟨c, hrun, hw, by simp [Regs.completeFlags, he]⟩
    · obtain ⟨hw, he⟩ := hrgb h h'
      exact ⟨c, hrun, hw, by simp [Regs.completeFlags, he]⟩
  | host x rest _ t' ht' reply =>
    obtain ⟨hplane, hch, hrgb⟩ := validity_hostEffect ht'
    exact ⟨fun h h' => elim_clear_set h (hplane h'),
      fun h h' => elim_clear_set h (hch h'), fun h h' => elim_clear_set h (hrgb h')⟩
  | hardReset rest _ => simp [Regs.reset]

/-! ### The memories after a stage -/

theorem decodeBody_memories (s : State) :
    (decodeBody s).1.inMem = s.inMem ∧ (∀ role, (decodeBody s).1.ch role = s.ch role) ∧ (decodeBody s).1.rgb = s.rgb := by
  rcases decodeBody_cases s with ⟨e, -, hb⟩ | ⟨L, -, -, hb⟩ <;> rw [hb] <;> exact ⟨rfl, fun _ => rfl, rfl⟩

theorem splitBody_memories (s : State) :
    (splitBody s).1.inMem = s.inMem ∧ (splitBody s).1.plane = s.plane ∧ (splitBody s).1.rgb = s.rgb := by
  rcases splitBody_cases s with ⟨-, hb⟩ | ⟨-, -, hb⟩ | ⟨o, -, -, hb⟩ <;> rw [hb]
  · exact ⟨rfl, rfl, rfl⟩
  · exact ⟨rfl, rfl, rfl⟩
  · exact ⟨splitChannels_inMem o s, splitChannels_plane o s, splitChannels_rgb o s⟩

theorem reconBody_memories (s : State) :
    (reconBody s).1.inMem = s.inMem ∧ (reconBody s).1.plane = s.plane ∧ (∀ role, (reconBody s).1.ch role = s.ch role) := by
  rcases reconBody_cases s with ⟨-, hb⟩ | ⟨-, hb⟩ <;> rw [hb] <;> exact ⟨rfl, rfl, fun _ => rfl⟩

theorem pipeBody_inMem (s : State) : (pipeBody s).1.inMem = s.inMem := by
  have hd := (decodeBody_memories s).1
  have hs := (splitBody_memories (decodeBody s).1).1
  have hr := (reconBody_memories (splitBody (decodeBody s).1).1).1
  rcases pipeBody_cases s with ⟨e, -, hb⟩ | ⟨e, -, -, hb⟩ | ⟨-, -, hb⟩ <;> simp [hb, hd, hs, hr]

/-- From s to t no memory changes but those that the command word c writes (R50). -/
structure WritesOnlyItsOwn (c : Word) (s t : State) : Prop where
  inMem : t.inMem = s.inMem
  plane : t.plane ≠ s.plane → WritesPlane c
  ch : ∀ role, t.ch role ≠ s.ch role → WritesChannels c
  rgb : t.rgb ≠ s.rgb → WritesRgb c

theorem writesOnlyItsOwn_commandBody (c : Word) (s : State) : WritesOnlyItsOwn c s (commandBody c s).1 := by
  rcases commandBody_cases c s with ⟨e, hb⟩ | ⟨hc, hb⟩ | ⟨hc, hb⟩ | ⟨hc, hb⟩ | ⟨hc, hb⟩ <;> rw [hb]
  · exact ⟨rfl, fun h => absurd rfl h, fun _ h => absurd rfl h, fun h => absurd rfl h⟩
  · obtain ⟨hin, hch, hrgb⟩ := decodeBody_memories s
    exact ⟨hin, fun _ => .inl hc, fun role h => absurd (hch role) h, fun h => absurd hrgb h⟩
  · obtain ⟨hin, hplane, hrgb⟩ := splitBody_memories s
    exact ⟨hin, fun h => absurd hplane h, fun _ _ => .inl hc, fun h => absurd hrgb h⟩
  · obtain ⟨hin, hplane, hch⟩ := reconBody_memories s
    exact ⟨hin, fun h => absurd hplane h, fun role h => absurd (hch role) h, fun _ => .inl hc⟩
  · exact ⟨pipeBody_inMem s, fun _ => .inr hc, fun _ _ => .inr hc, fun _ => .inr hc⟩

/-- A transaction changes no output memory, unless it is a soft reset while busy, and IN only by a write to its window (R50, R266). -/
theorem memories_hostEffect {x : Transaction} {s t : State} (ht : HostEffect x s t) :
    (t.inMem ≠ s.inMem → ∃ addr d, 0x10000000 ≤ addr.toNat ∧ addr.toNat < 0x20000000 ∧ x = .write addr .word d) ∧
    ((t.plane = s.plane ∧ (∀ role, t.ch role = s.ch role) ∧ t.rgb = s.rgb) ∨
      (s.busy = true ∧ ∃ d : Word, d.getLsbD 0 = true ∧ x = .write (at_ 0x020) .word d)) := by
  cases ht with
  | softReset d hbit hx =>
    refine ⟨by simp, ?_⟩
    cases hp : s.pending with
    | some c => exact .inr ⟨by simp [State.busy, hp], d, hbit, hx⟩
    | none =>
      rw [softReset_of_idle hp]
      exact .inl ⟨rfl, fun _ => rfl, rfl⟩
  | inWord addr d k hx haddr _ => exact ⟨fun _ => ⟨addr, d, haddr.1, haddr.2, hx⟩, .inl ⟨rfl, fun _ => rfl, rfl⟩⟩
  | none => exact ⟨fun h => absurd rfl h, .inl ⟨rfl, fun _ => rfl, rfl⟩⟩
  | accept c => exact ⟨fun h => absurd rfl h, .inl ⟨rfl, fun _ => rfl, rfl⟩⟩
  | regs g _ => exact ⟨fun h => absurd rfl h, .inl ⟨rfl, fun _ => rfl, rfl⟩⟩

/-- Settles O56: of the effects of a step, a command changes its own outputs, a transaction IN or, as a soft reset, the outputs, and the
hardware reset all. -/
theorem memoriesChangeOnlyByTheirWriter : Obligations.MemoriesChangeOnlyByTheirWriter := by
  intro s
  obtain ⟨t, hstep, heff⟩ := step_effect s
  refine ⟨t, hstep, ?_⟩
  cases heff with
  | idle => exact ⟨fun h => absurd rfl h, fun h => absurd rfl h, fun _ h => absurd rfl h, fun h => absurd rfl h⟩
  | command c hrun =>
    obtain ⟨hin, hplane, hch, hrgb⟩ := writesOnlyItsOwn_commandBody c (takeInput s)
    refine ⟨fun h => absurd hin h, fun h => .inr ⟨c, hrun, hplane h⟩, fun role h => .inr ⟨c, hrun, ?_⟩, fun h => .inr ⟨c, hrun, hrgb h⟩⟩
    rw [ch_complete] at h
    exact hch role h
  | host x rest hin t' ht' reply =>
    obtain ⟨hwrite, hout⟩ := memories_hostEffect ht'
    refine ⟨fun h => ?_, ?_⟩
    · obtain ⟨addr, d, hlo, hhi, rfl⟩ := hwrite h
      exact ⟨rest, .inr ⟨addr, d, hlo, hhi, hin⟩⟩
    · rcases hout with ⟨hplane, hch, hrgb⟩ | ⟨hbusy, d, hbit, rfl⟩
      · exact ⟨fun h => absurd hplane h, fun role h => absurd (hch role) h, fun h => absurd hrgb h⟩
      · have hdrawn : OutputsDrawn s := ⟨rest, .inr ⟨hbusy, d, hbit, hin⟩⟩
        exact ⟨fun _ => .inl hdrawn, fun _ _ => .inl hdrawn, fun _ => .inl hdrawn⟩
  | hardReset rest hin =>
    have hdrawn : OutputsDrawn s := ⟨rest, .inl hin⟩
    exact ⟨fun _ => ⟨rest, .inl hin⟩, fun _ => .inl hdrawn, fun _ _ => .inl hdrawn, fun _ => .inl hdrawn⟩

end Sys2Proof.Proofs
end

section
/-! What the registers read, and what an accepted write to one of them leaves (R23 to R52). -/

namespace Sys2Proof.Proofs

open Sys2Proof.Machine Sys2Proof.Claims Sys2Proof.Laws

/-! ### The derived registers -/

theorem rowBytes_le (w : Nat) (h : w ≤ 65535) (L : Option Layout) : rowBytes w L ≤ 131070 := by
  rcases L with _ | L
  · exact Nat.zero_le _
  · cases L <;> simp only [rowBytes] <;> omega

/-- A stride is a row of at most 131070 bytes and two paddings (R41, R133). -/
theorem stride_le (g : Regs) : g.stride ≤ 262140 := by
  have hw := g.width.isLt
  have hl := g.lpad.isLt
  have hr := g.rpad.isLt
  have hrow := rowBytes_le g.width.toNat (by omega) g.layout
  unfold Regs.stride
  omega

theorem readReg_stride_toNat (s : State) : (readReg .stride s).toNat = s.regs.stride := by
  have h := stride_le s.regs
  simp only [readReg, BitVec.toNat_ofNat]
  omega

/-- Settles O9: a stride is below 2^32, so STRIDE shows it whole. -/
theorem strideRegisterIsExact : Obligations.StrideRegisterIsExact := by
  refine ⟨fun s => ?_, fun p => rfl⟩
  rw [readReg_stride_toNat]
  exact ⟨rfl, stride_le s.regs⟩

theorem readReg_reqLen_toNat (s : State) : (readReg .reqLen s).toNat = min s.regs.reqLen 0xFFFFFFFF := by
  simp only [readReg, BitVec.toNat_ofNat]
  omega

/-- DESC_CHECK shows the code of the first failed check (R43). -/
theorem readReg_descCheck_toNat (s : State) : (readReg .descCheck s).toNat = (codeOf (descCheck s.params s.regs)).toNat :=
  reserved_append_toNat 28 _

theorem codeOf_toNat_ne_zero (e : Err) : (codeOf (some e)).toNat ≠ 0 := fun h => codeOf_some_ne e (BitVec.eq_of_toNat_eq h)

/-- Settles O10: the register saturates, and the check compares the length itself. -/
theorem reqLenRegisterSaturates : Obligations.ReqLenRegisterSaturates := by
  refine ⟨fun s => ?_, fun s hshort hzero => ?_, fun p => rfl⟩
  · rw [readReg_reqLen_toNat, readReg_stride_toNat]
    rfl
  · rw [readReg_stride_toNat] at hshort
    cases hcheck : descCheck s.params s.regs with
    | none => exact absurd hshort (not_lt.mpr ((descCheck_eq_none _ _).mp hcheck).2.2)
    | some e =>
      have h := readReg_descCheck_toNat s
      rw [hzero, hcheck] at h
      exact codeOf_toNat_ne_zero e h.symm

/-! ### DERIV -/

/-- The effective depth by the numbers of BPP_OVR and ENC (R130). -/
theorem effBpp_eq (g : Regs) :
    g.effBpp = if g.bppOvr.toNat > 0 then g.bppOvr.toNat else
      match g.enc.toNat with | 0 => 8 | 1 => 10 | 2 => 12 | 3 => 16 | 4 => 14 | _ => 16 := by
  unfold Regs.effBpp
  generalize g.enc = enc
  split
  · rfl
  · decide +revert

theorem effBpp_bounds (g : Regs) : 1 ≤ g.effBpp ∧ g.effBpp ≤ 31 := by
  have := g.bppOvr.isLt
  unfold Regs.effBpp
  repeat' split
  all_goals omega

/-- The layout code by the numbers of ENC and BPP_OVR (R40, R131). -/
theorem layoutCode_toNat (g : Regs) :
    (layoutCode g.layout).toNat = if g.enc.toNat < 4 then g.enc.toNat else
      if g.bppOvr.toNat = 8 then 0 else if g.bppOvr.toNat = 10 then 1 else if g.bppOvr.toNat = 12 then 2
      else if g.bppOvr.toNat = 16 then 3 else 7 := by
  unfold Regs.layout
  generalize g.enc = enc
  generalize g.bppOvr = ovr
  decide +revert

theorem readReg_deriv_toNat (s : State) : (readReg .deriv s).toNat = s.regs.effBpp + 256 * (layoutCode s.regs.layout).toNat := by
  obtain ⟨-, h⟩ := effBpp_bounds s.regs
  simp only [readReg, append_toNat, BitVec.toNat_ofNat]
  omega

/-- Settles O11: the depth is below 32, so the two fields of DERIV show depth and layout whole. -/
theorem derivRegisterShowsDepthAndLayout : Obligations.DerivRegisterShowsDepthAndLayout := by
  refine ⟨fun s => ?_, fun p => BitVec.eq_of_toNat_eq ((readReg_deriv_toNat _).trans rfl)⟩
  dsimp only
  have hbounds := effBpp_bounds s.regs
  rw [readReg_deriv_toNat, layoutCode_toNat]
  rw [effBpp_eq] at hbounds ⊢
  exact ⟨rfl, hbounds⟩

/-! ### Accepted writes -/

theorem busWrite_idle (r : Reg) {d : Word} {s s' : State} (hidle : s.busy = false) (hw : writeReg r d s = some s') :
    busWrite (at_ r.offset) .word d s = (s', .okay) :=
  busWrite_reg r d s s' (.inl hidle) hw

/-! What a register reads after a write of d, as bits: a field holds its bit of d where the mask of its register has 1, and a reserved bit
reads 0 where the mask has 0 (R51). -/

theorem low16_masked (d : Word) : 0#16 ++ low16 d = d &&& 0xFFFF := by
  ext k hk
  simp only [low16, BitVec.getElem_append, BitVec.getElem_extractLsb']
  interval_cases k <;> simp

theorem irqEn_masked (d : Word) : 0#30 ++ BitVec.ofBool (d.getLsbD 1) ++ BitVec.ofBool (d.getLsbD 0) = d &&& 0x3 := by
  ext k hk
  simp only [BitVec.getElem_append]
  interval_cases k <;> simp

theorem descFmt_masked (d : Word) :
    0#15 ++ BitVec.ofBool (d.getLsbD 16) ++ 0#1 ++ d.extractLsb' 12 3 ++ 0#3 ++ d.extractLsb' 4 5 ++ 0#1 ++ d.extractLsb' 0 3
      = d &&& 0x171F7 := by
  ext k hk
  simp only [BitVec.getElem_append]
  interval_cases k <;> simp

/-- Settles O44: each register stores its fields of d, and a read shows them under its mask. -/
theorem reservedBitsReadZero : Obligations.ReservedBitsReadZero := by
  refine ⟨fun s d hidle rm hrm => ?_, fun s d => busWrite_reg .irqEn d s _ (.inr rfl) rfl, fun s d hidle => ?_⟩
  · obtain ⟨r, mask⟩ := rm
    cases r <;> simp only [plainRegs, List.mem_cons, List.not_mem_nil, Prod.mk.injEq, reduceCtorEq, false_and, true_and, or_false,
      false_or] at hrm
    all_goals
      subst hrm
      refine ⟨_, busWrite_idle _ hidle rfl, ?_⟩
    case irqEn => exact irqEn_masked d
    case descFmt => exact descFmt_masked d
    case descHdr => exact (BitVec.and_allOnes ..).symm
    all_goals exact low16_masked d
  · exact ⟨busWrite_idle .descW hidle rfl, busWrite_idle .descH hidle rfl, busWrite_idle .descFmt hidle rfl,
      busWrite_idle .descHdr hidle rfl, busWrite_idle .descLpad hidle rfl, busWrite_idle .descRpad hidle rfl⟩

/-- Settles O45: the clamped value fits 32 bits. -/
theorem inLenIsClamped : Obligations.InLenIsClamped :=
  ⟨fun s v hidle => ⟨_, busWrite_idle .inLen hidle rfl, rfl, inLen_clamp_toNat v s.params.inSize, rfl⟩, fun _ => rfl⟩

/-! ### The settings of RECON -/

theorem low16_toNat (d : Word) : (low16 d).toNat = d.toNat % 65536 := by simp [low16]

theorem toNat_getLsbD_zero (d : Word) : (d.getLsbD 0).toNat = d.toNat % 2 := by
  rw [BitVec.getLsbD, Nat.toNat_testBit]
  simp

theorem extract_edge_toNat (d : Word) : (d.extractLsb' 1 2).toNat = d.toNat / 2 % 4 := by simp [Nat.shiftRight_eq_div_pow]

/-- EDGE takes a storable code by its number (R39). -/
theorem edgeWrite_eq (d : Word) (old : Edge) :
    edgeWrite (d.extractLsb' 1 2) old = (match d.toNat / 2 % 4 with | 0 => .zero | 1 => .crop | 2 => .full | _ => old) := by
  rw [← extract_edge_toNat]
  generalize d.extractLsb' 1 2 = code
  cases old <;> decide +revert

theorem readReg_reconCtrl_toNat (s : State) :
    (readReg .reconCtrl s).toNat = s.regs.rnd.toNat + 2 * (edgeCode s.regs.edge).toNat := by
  have hrnd : (BitVec.ofBool s.regs.rnd).toNat = s.regs.rnd.toNat := by cases s.regs.rnd <;> rfl
  simp only [readReg, append_toNat, BitVec.toNat_ofNat, hrnd]
  omega

/-- The field EDGE after a write keeps its old code where code 3 is written (R39). -/
theorem edgeCode_edgeWrite (d : Word) (old : Edge) :
    (edgeCode (edgeWrite (d.extractLsb' 1 2) old)).toNat = if d.toNat / 2 % 4 = 3 then (edgeCode old).toNat else d.toNat / 2 % 4 := by
  rw [← extract_edge_toNat]
  generalize d.extractLsb' 1 2 = code
  cases old <;> decide +revert

/-- Settles O46: the writes to the settings, by their register rules. -/
theorem reconSettingsInvalidatePreview : Obligations.ReconSettingsInvalidatePreview := by
  intro s d hidle
  refine ⟨⟨_, busWrite_idle .reconCtrl hidle rfl, rfl, edgeWrite_eq d s.regs.edge, ?_⟩,
    ⟨_, busWrite_idle .gainR hidle rfl, rfl, low16_toNat d⟩, ⟨_, busWrite_idle .gainG hidle rfl, rfl, low16_toNat d⟩,
    ⟨_, busWrite_idle .gainB hidle rfl, rfl, low16_toNat d⟩⟩
  have hold : (readReg .reconCtrl s).toNat / 2 = (edgeCode s.regs.edge).toNat := by
    have := Bool.toNat_le s.regs.rnd
    rw [readReg_reconCtrl_toNat]
    omega
  rw [readReg_reconCtrl_toNat, hold, ← edgeCode_edgeWrite, toNat_getLsbD_zero]

/-! ### STATUS -/

/-- The bits above the eight fields of STATUS read 0 (R27, R51). -/
theorem statusWord_getLsbD_high (s : State) {k : Nat} (hk : 8 ≤ k) : s.statusWord.getLsbD k = false := by
  simp only [State.statusWord, BitVec.getLsbD_append, BitVec.getLsbD_zero]
  repeat rw [if_neg (by omega)]

/-- Settles O47: STATUS is its eight fields side by side, and a write to it is accepted idle or busy. -/
theorem statusFieldsAndWriteOneToClear : Obligations.StatusFieldsAndWriteOneToClear := by
  intro s
  refine ⟨?_, ?_, ?_, ?_, ?_, ?_, ?_, ?_, ?_, fun _ hk => statusWord_getLsbD_high s hk, fun d => busWrite_reg .status d s _ (.inr rfl) rfl⟩
  all_goals simp only [readReg, State.statusWord, BitVec.getLsbD_append]
  all_goals simp [State.irq, Regs.irq]

/-! ### The registers after a reset -/

/-- Settles O52: the stored fields by their reset values, the parameters below 2^16 and 2^32, and a descriptor whose width is 0. -/
theorem registersAfterReset : Obligations.RegistersAfterReset := by
  intro p hp
  have hw : p.maxW < 2 ^ 16 := Nat.lt_succ_of_le hp.maxW_le
  have hh : p.maxH < 2 ^ 16 := Nat.lt_succ_of_le hp.maxH_le
  have hin : p.inSize < 2 ^ 32 := hp.inSize_max.trans_lt (by decide)
  have hcheck : descCheck p Regs.reset = some .invalidDimension := if_pos (.inl rfl)
  refine ⟨rfl, rfl, rfl, rfl, ?maxW, ?maxH, ?inSize, ?fmt, ?gainR, ?gainG, ?gainB, ?recon,
    BitVec.eq_of_toNat_eq (readReg_deriv_toNat _), ?check, fun r hr => ?zero⟩
  case maxW => exact (reserved_append_toNat 16 _).trans ((BitVec.toNat_ofNat ..).trans (Nat.mod_eq_of_lt hw))
  case maxH => exact (reserved_append_toNat 16 _).trans ((BitVec.toNat_ofNat ..).trans (Nat.mod_eq_of_lt hh))
  case inSize => exact (BitVec.toNat_ofNat ..).trans (Nat.mod_eq_of_lt hin)
  case check =>
    apply BitVec.eq_of_toNat_eq
    rw [readReg_descCheck_toNat]
    exact congrArg (fun e => (codeOf e).toNat) hcheck
  case zero =>
    cases r
    case stride => exact strideRegisterIsExact.2 p
    case reqLen => exact reqLenRegisterSaturates.2.2 p
    all_goals simp [readReg, State.statusWord, State.busy, Regs.irq, State.resetWith, Regs.reset] at hr ⊢
  all_goals simp [readReg, State.resetWith, Regs.reset, edgeCode]

end Sys2Proof.Proofs
end

section
/-! The host bus: which addresses name something, how an access to a target is answered, and the packing of the windows (R70 to R80). -/

namespace Sys2Proof.Proofs

open Sys2Proof.Machine Sys2Proof.Claims Sys2Proof.Laws

/-! ### How a target answers -/

section Answers

variable {addr d : Word} {size : AccessSize} {s s' : State} {t : Target}

theorem busRead_unmapped (ht : target s.params addr size = none) : busRead addr size s = .read .slverr 0 := by
  simp [busRead, ht]

theorem busWrite_unmapped (ht : target s.params addr size = none) (d : Word) : busWrite addr size d s = (s, .slverr) := by
  simp [busWrite, ht]

theorem busRead_idle (hidle : s.busy = false) (ht : target s.params addr size = some t) :
    busRead addr size s = .read .okay (readTarget t s) := by
  simp [busRead, ht, readBlocked, hidle]

theorem busWrite_accepted (hidle : s.busy = false) (ht : target s.params addr size = some t) (hw : writeTarget t d s = some s') :
    busWrite addr size d s = (s', .okay) := by
  simp [busWrite, ht, writeBlocked, hidle, hw]

/-- A target that takes no write refuses it, idle or busy (R74, R77 to R79). -/
theorem busWrite_readOnly (ht : target s.params addr size = some t) (hw : writeTarget t d s = none) :
    busWrite addr size d s = (s, .slverr) := by
  simp [busWrite, ht, hw]

/-- While busy a read of a memory window is refused (R80). -/
theorem busRead_memory_busy (hbusy : s.busy = true) (ht : target s.params addr size = some t) (hmem : t.inMemory = true) :
    busRead addr size s = .read .slverr 0 := by
  simp [busRead, ht, readBlocked, hbusy, hmem]

/-- A read that gets OKAY has a target. -/
theorem target_isSome_of_busRead_okay {v : Word} (h : busRead addr size s = .read .okay v) : (target s.params addr size).isSome := by
  cases ht : target s.params addr size with
  | none => simp [busRead_unmapped ht] at h
  | some t => rfl

end Answers

/-! ### The words of the windows -/

/-- A channel memory has at most a quarter of the plane's elements (R50). -/
theorem nc_le (p : Params) : 4 * p.nc ≤ p.np := by
  have := Nat.div_mul_div_le p.maxW 2 p.maxH 2
  unfold Params.nc Params.np
  omega

/-- Word k of window w from the address as a number (R72). -/
theorem target_of_toNat {p : Params} {addr : Word} {w k : Nat} (haddr : addr.toNat = w * 0x10000000 + 4 * k) (hk : k < 0x04000000) :
    target p addr .word = windowTarget p w k := by
  have hlt := addr.isLt
  rw [← target_window p w k (by omega) hk, ← haddr, BitVec.ofNat_toNat, BitVec.setWidth_eq]

section Windows

variable {p : Params} {addr : Word} {k : Nat}

theorem target_inWord (hp : p.WellFormed) (hk : k < p.inSize / 4) (haddr : addr.toNat = 0x10000000 + 4 * k) :
    target p addr .word = some (.inWord k) := by
  have := hp.inSize_max
  rw [target_of_toNat (w := 1) haddr (by omega)]
  simp [windowTarget, wordBelow, hk]

theorem target_planeWord (hp : p.WellFormed) (hk : k < (p.np + 1) / 2) (haddr : addr.toNat = 0x20000000 + 4 * k) :
    target p addr .word = some (.planeWord k) := by
  have hnp : p.np ≤ 0x08000000 := hp.area_le
  rw [target_of_toNat (w := 2) haddr (by omega)]
  simp [windowTarget, wordBelow, hk]

/-- The window of a channel memory (R72). -/
def chWindow : Role → Nat
  | .r => 3
  | .gr => 4
  | .gb => 5
  | .b => 6

theorem target_chWord (hp : p.WellFormed) (role : Role) (hk : k < (p.nc + 1) / 2) (haddr : addr.toNat = chWindow role * 0x10000000 + 4 * k) :
    target p addr .word = some (.chWord role k) := by
  have hnp : p.np ≤ 0x08000000 := hp.area_le
  have hnc := nc_le p
  rw [target_of_toNat haddr (by omega)]
  cases role <;> simp [windowTarget, wordBelow, hk, chWindow]

theorem target_rgbWord (hp : p.WellFormed) (hk : k < p.nc) (haddr : addr.toNat = 0x70000000 + 4 * k) :
    target p addr .word = some (.rgbWord k) := by
  have hnp : p.np ≤ 0x08000000 := hp.area_le
  have hnc := nc_le p
  rw [target_of_toNat (w := 7) haddr (by omega)]
  simp [windowTarget, wordBelow, hk]

end Windows

/-! ### The address map -/

/-- The listed offsets are those of the registers (R23). -/
theorem mem_listedOffsets_iff (a : Nat) : a ∈ listedOffsets ↔ ∃ r : Reg, r.offset = a := by
  constructor
  · intro ha
    have hall : ∀ b ∈ listedOffsets, ((regAt b).map Reg.offset) = some b := by decide
    obtain ⟨r, -, hr⟩ := Option.map_eq_some_iff.mp (hall a ha)
    exact ⟨r, hr⟩
  · rintro ⟨r, rfl⟩
    cases r <;> decide

/-- Only implemented addresses have a target (R72, R73). -/
theorem implemented_of_target {p : Params} {addr : Word} {size : AccessSize} {t : Target} (h : target p addr size = some t) :
    Implemented p addr.toNat := by
  obtain ⟨-, halign, hw⟩ := target_some h
  have channel {j : Nat} (hj : j < 4) (hw : addr.toNat / 2 ^ 28 = 3 + j) (hk : addr.toNat % 2 ^ 28 / 4 < (p.nc + 1) / 2) :
      Implemented p addr.toNat := by
    unfold Params.nc at hk
    exact .inr (.inr (.inr (.inl ⟨j, hj, by omega, by omega⟩)))
  rcases windowTarget_cases hw with ⟨hw, r, -, hr⟩ | ⟨hw, -, hk⟩ | ⟨hw, -, hk⟩ | ⟨hw, -, hk⟩ | ⟨hw, -, hk⟩ | ⟨hw, -, hk⟩ |
    ⟨hw, -, hk⟩ | ⟨hw, -, hk⟩
  · exact .inl ((mem_listedOffsets_iff _).mpr ⟨r, by omega⟩)
  · exact .inr (.inl (by omega))
  · unfold Params.np at hk
    exact .inr (.inr (.inl (by omega)))
  · exact channel (j := 0) (by decide) hw hk
  · exact channel (j := 1) (by decide) hw hk
  · exact channel (j := 2) (by decide) hw hk
  · exact channel (j := 3) (by decide) hw hk
  · unfold Params.nc at hk
    exact .inr (.inr (.inr (.inr (by omega))))

/-- With valid parameters the implemented addresses are those with a target (R72). -/
theorem target_isSome_of_implemented {p : Params} {addr : Word} (hp : p.WellFormed) (halign : addr.toNat % 4 = 0)
    (h : Implemented p addr.toNat) : (target p addr .word).isSome := by
  have hin := hp.inSize_words
  rcases h with h | h | h | ⟨j, hj, hlow, hhigh⟩ | h
  · obtain ⟨r, hr⟩ := (mem_listedOffsets_iff _).mp h
    have hreg := target_reg p r
    rw [hr, BitVec.ofNat_toNat, BitVec.setWidth_eq] at hreg
    rw [hreg, Option.isSome_some]
  · rw [target_inWord hp (k := (addr.toNat - 0x10000000) / 4) (by omega) (by omega), Option.isSome_some]
  · rw [target_planeWord hp (k := (addr.toNat - 0x20000000) / 4) (by unfold Params.np; omega) (by omega), Option.isSome_some]
  · obtain ⟨role, hrole⟩ : ∃ role, chWindow role = 3 + j := by
      interval_cases j
      exacts [⟨.r, rfl⟩, ⟨.gr, rfl⟩, ⟨.gb, rfl⟩, ⟨.b, rfl⟩]
    rw [target_chWord hp role (k := (addr.toNat - (3 + j) * 0x10000000) / 4) (by unfold Params.nc; omega) (by rw [hrole]; omega),
      Option.isSome_some]
  · rw [target_rgbWord hp (k := (addr.toNat - 0x70000000) / 4) (by unfold Params.nc; omega) (by omega), Option.isSome_some]

/-- An access has a target exactly where the map serves it (R71, R72). -/
theorem target_isSome_iff {p : Params} (hp : p.WellFormed) (addr : Word) (size : AccessSize) :
    (target p addr size).isSome ↔ size = .word ∧ addr.toNat % 4 = 0 ∧ Implemented p addr.toNat := by
  constructor
  · intro h
    obtain ⟨t, ht⟩ := Option.isSome_iff_exists.mp h
    obtain ⟨hsize, halign, -⟩ := target_some ht
    exact ⟨hsize, halign, implemented_of_target ht⟩
  · rintro ⟨rfl, halign, himpl⟩
    exact target_isSome_of_implemented hp halign himpl

/-- Settles O42: an access is served exactly where it has a target. -/
theorem addressMapAnswersWhatIsImplemented : Obligations.AddressMapAnswersWhatIsImplemented := by
  intro s addr size hp
  dsimp only
  rw [← target_isSome_iff hp addr size]
  refine ⟨fun hnone => ?_, fun v => target_isSome_of_busRead_okay, fun hidle hsome => ?_⟩
  · rw [Option.not_isSome_iff_eq_none] at hnone
    exact ⟨busRead_unmapped hnone, busWrite_unmapped hnone⟩
  · obtain ⟨t, ht⟩ := Option.isSome_iff_exists.mp hsome
    exact ⟨_, busRead_idle hidle ht⟩

/-! ### The busy block -/

/-- A target at or above the first memory window is a word of a memory (R72). -/
theorem inMemory_of_target {p : Params} {addr : Word} {size : AccessSize} {t : Target} (ht : target p addr size = some t)
    (haddr : 0x10000000 ≤ addr.toNat) : t.inMemory = true := by
  cases t with
  | reg r =>
    obtain ⟨-, rfl⟩ := addr_of_target_reg ht
    have := offset_lt r
    rw [BitVec.toNat_ofNat] at haddr
    omega
  | inWord k => rfl
  | planeWord k => rfl
  | chWord role k => rfl
  | rgbWord k => rfl

/-- While busy only CTRL, STATUS and IRQ_EN take a write (R80). -/
theorem reg_of_writeBlocked_eq_false {t : Target} {s : State} (hbusy : s.busy = true) (h : writeBlocked t s = false) :
    t = .reg .ctrl ∨ t = .reg .status ∨ t = .reg .irqEn := by
  simp only [writeBlocked, hbusy, Bool.true_and] at h
  cases t with
  | reg r => cases r <;> simp [writableWhileBusy] at h ⊢
  | inWord k => cases h
  | planeWord k => cases h
  | chWord role k => cases h
  | rgbWord k => cases h

/-- Settles O49: what the busy block refuses, by the target; the three writes it takes are never refused. -/
theorem busyBlockRefusesAccesses : Obligations.BusyBlockRefusesAccesses := by
  intro s addr size d hbusy
  refine ⟨fun haddr => ?_, fun hctrl hstatus hirq => ?_, fun r => busRead_reg r s, fun r hr => ?_⟩
  · cases ht : target s.params addr size with
    | none => exact busRead_unmapped ht
    | some t => exact busRead_memory_busy hbusy ht (inMemory_of_target ht haddr)
  · rcases busWrite_cases addr size d s with h | ⟨t, s', ht, hfree, -, -⟩
    · exact h
    rcases reg_of_writeBlocked_eq_false hbusy hfree with rfl | rfl | rfl
    · exact absurd (addr_of_target_reg ht).2 hctrl
    · exact absurd (addr_of_target_reg ht).2 hstatus
    · exact absurd (addr_of_target_reg ht).2 hirq
  · simp only [List.mem_cons, List.not_mem_nil, or_false] at hr
    rcases hr with rfl | rfl | rfl
    all_goals exact ⟨_, rfl, busWrite_reg _ d s _ (.inr rfl) rfl⟩

/-! ### The IN window -/

/-- Lane i of a word of IN is the byte at offset i from its first (R75). -/
theorem inWord_lane (s : State) (k : Nat) {i : Nat} (hi : i < 4) :
    (s.inWord k).toNat / 256 ^ i % 256 = (s.readIn (4 * k + i)).toNat := by
  have h0 := (s.readIn (4 * k)).isLt
  have h1 := (s.readIn (4 * k + 1)).isLt
  have h2 := (s.readIn (4 * k + 2)).isLt
  have h3 := (s.readIn (4 * k + 3)).isLt
  simp only [State.inWord, append_toNat]
  interval_cases i
  · rw [Nat.add_zero (4 * k)]
    omega
  all_goals omega

/-- A write puts lane i of its data at offset i of the word (R75). -/
theorem readIn_writeInWord_lane (k : Nat) (d : Word) (s : State) {i : Nat} (hi : i < 4) :
    (writeInWord k d s).readIn (4 * k + i) = d.extractLsb' (8 * i) 8 := by
  simp only [State.readIn, writeInWord]
  interval_cases i
  all_goals
    repeat rw [read_write_other _ _ _ _ _ (by omega)]
    exact read_write_same ..

/-- A write leaves the bytes of every other word of IN (R75). -/
theorem readIn_writeInWord_other (k : Nat) (d : Word) (s : State) {a : Nat} (ha : a < 4 * k ∨ 4 * k + 4 ≤ a) :
    (writeInWord k d s).readIn a = s.readIn a := by
  simp only [State.readIn, writeInWord]
  iterate 4 rw [read_write_other _ _ _ _ _ (by omega)]

theorem extract_lane_toNat (d : Word) (i : Nat) : (d.extractLsb' (8 * i) 8).toNat = d.toNat / 256 ^ i % 256 := by
  simp [Nat.shiftRight_eq_div_pow, pow_mul]

/-- Settles O50: the four lanes of a word of IN, read and written. -/
theorem inWindowIsLittleEndian : Obligations.InWindowIsLittleEndian := by
  intro s k hp hidle hk
  have hsize := hp.inSize_max
  have ht : target s.params (BitVec.ofNat 32 (0x10000000 + 4 * k)) .word = some (.inWord k) := by
    refine target_inWord hp hk ?_
    rw [BitVec.toNat_ofNat]
    omega
  refine ⟨⟨s.inWord k, busRead_idle hidle ht, fun i hi => (inWord_lane s k hi).symm⟩, fun d => ?_⟩
  refine ⟨writeInWord k d s, busWrite_accepted hidle ht rfl, rfl, fun i hi => ?_, fun a ha => readIn_writeInWord_other k d s ha⟩
  rw [readIn_writeInWord_lane k d s hi, extract_lane_toNat]

/-! ### The output windows -/

/-- A pixel's word holds r, g and b from its lowest byte (R79). -/
theorem packPixel_toNat (q : Pixel) : (packPixel q).toNat = q.r.toNat + 256 * q.g.toNat + 65536 * q.b.toNat := by
  simp only [packPixel, append_toNat, BitVec.toNat_ofNat]
  omega

/-- How a word of a window that only commands write is answered while idle (R77 to R79). -/
theorem outputWord_answers {s : State} {addr : Word} {t : Target} {n : Nat} (hidle : s.busy = false)
    (ht : target s.params addr .word = some t) (hro : ∀ d, writeTarget t d s = none) (hn : (readTarget t s).toNat = n) :
    (∃ v, busRead addr .word s = .read .okay v ∧ v.toNat = n) ∧ ∀ d, busWrite addr .word d s = (s, .slverr) :=
  ⟨⟨_, busRead_idle hidle ht, hn⟩, fun d => busWrite_readOnly ht (hro d)⟩

/-- Settles O51: each word of an output window, by its target. -/
theorem outputWindowPacking : Obligations.OutputWindowPacking := by
  intro s k hp hidle
  have hnp : s.params.np ≤ 0x08000000 := hp.area_le
  have hnc := nc_le s.params
  refine ⟨fun hk => ?plane, fun hk rn hrn => ?channels, fun hk => ?rgb⟩
  case plane =>
    refine outputWord_answers hidle (target_planeWord hp hk ?_) (fun _ => rfl) (packSamples_toNat ..)
    rw [BitVec.toNat_ofNat]
    omega
  case channels =>
    have hwin : rn.2 = chWindow rn.1 ∧ rn.2 < 7 := by
      revert rn
      decide
    refine outputWord_answers hidle (target_chWord hp rn.1 hk ?_) (fun _ => rfl) (packSamples_toNat ..)
    rw [BitVec.toNat_ofNat, ← hwin.1]
    omega
  case rgb =>
    refine outputWord_answers hidle (target_rgbWord hp hk ?_) (fun _ => rfl) (packPixel_toNat _)
    rw [BitVec.toNat_ofNat]
    omega

/-! ### Accesses to the listed registers -/

/-- Reserved bits above a field make its zero extension (R51). -/
theorem reserved_append_eq_setWidth (m : Nat) {n : Nat} (x : BitVec n) : 0#m ++ x = x.setWidth (m + n) := by
  apply BitVec.eq_of_toNat_eq
  rw [reserved_append_toNat, BitVec.toNat_setWidth_of_le (Nat.le_add_left n m)]

theorem readReg_irqEn_toNat (s : State) : (readReg .irqEn s).toNat = s.regs.doneIe.toNat + 2 * s.regs.errIe.toNat := by
  simp only [readReg, append_toNat, BitVec.toNat_ofNat, BitVec.toNat_ofBool]
  omega

theorem readReg_descFmt_toNat (s : State) : (readReg .descFmt s).toNat =
    s.regs.enc.toNat + 2 ^ 4 * s.regs.bppOvr.toNat + 2 ^ 12 * s.regs.bayer.toNat + 2 ^ 16 * s.regs.bigEndian.toNat := by
  simp only [readReg, append_toNat, BitVec.toNat_ofNat, BitVec.toNat_ofBool]
  omega

/-- The read-only registers are those that take no write (R74). -/
theorem writeReg_eq_none_iff (r : Reg) (d : Word) (s : State) : writeReg r d s = none ↔ r ∈ readOnlyRegs := by
  cases r <;> simp [writeReg, readOnlyRegs]

/-- Settles O43: each register's value by its fields, and its write by whether it is read-only. -/
theorem registerAccesses : Obligations.RegisterAccesses := by
  refine ⟨fun s r => busRead_reg r s, fun s => ⟨rfl, rfl, rfl, rfl⟩, fun s hp => ?caps, fun s => ?outcome, fun s => ?config,
    fun s d r => ⟨fun hro => ?readOnly, fun hrw hidle => ?writable⟩⟩
  case caps =>
    have hw := hp.maxW_le
    have hh := hp.maxH_le
    have hin := hp.inSize_max
    simp only [readReg, reserved_append_toNat, BitVec.toNat_ofNat]
    omega
  case outcome =>
    simp only [readReg, reserved_append_eq_setWidth, and_self]
  case config =>
    refine ⟨?_, ?_, rfl, rfl, ?_, ?_, ?_, ?_, ?_, readReg_irqEn_toNat s, readReg_descFmt_toNat s, ?edge⟩
    case edge =>
      rw [readReg_reconCtrl_toNat]
      cases s.regs.edge <;> rfl
    all_goals exact reserved_append_eq_setWidth 16 _
  case readOnly => exact busWrite_readOnly (target_reg s.params r) ((writeReg_eq_none_iff r d s).mpr hro)
  case writable =>
    obtain ⟨s', hs'⟩ := Option.ne_none_iff_exists'.mp (mt (writeReg_eq_none_iff r d s).mp hrw)
    exact congrArg Prod.snd (busWrite_idle r hidle hs')

end Sys2Proof.Proofs
end

section
/-! The encoding: command words and commands as two forms of one thing (R100 to R103, R116), and the host's conversion of gains (R113). -/

namespace Sys2Proof.Proofs

open Sys2Proof.Machine

/-! ### Command words -/

/-- The word of a command decodes to it (R101). -/
@[simp] theorem decodeWord_encode (i : Instr) : decodeWord (encode i) = .ok i := by
  cases i <;> decide

/-- Settles O3: a command's word decodes to it, and by `eq_encode_of_decodeWord` no other word does. -/
theorem decodeInvertsEncode : Obligations.DecodeInvertsEncode := by
  intro c i
  refine ⟨eq_encode_of_decodeWord, ?_⟩
  rintro rfl
  exact decodeWord_encode i

/-- RSV is c div 16, so it is 0 exactly for the words below 16 (R116). -/
theorem fieldRsv_eq_zero_iff (c : Word) : fieldRsv c = 0 ↔ c.toNat / 16 = 0 := by
  have hc := c.isLt
  rw [← BitVec.toNat_inj, fieldRsv, BitVec.extractLsb'_toNat, Nat.shiftRight_eq_div_pow, BitVec.ofNat_eq_ofNat, BitVec.toNat_zero]
  omega

/-- OP is c mod 16 (R116). -/
theorem fieldOp_toNat (c : Word) : (fieldOp c).toNat = c.toNat % 16 := by
  rw [fieldOp, BitVec.extractLsb'_toNat, Nat.shiftRight_zero]

/-- RSV ≠ 0 rejects a word, whatever its OP is (R102). -/
theorem decodeWord_of_fieldRsv_ne_zero {c : Word} (h : fieldRsv c ≠ 0) : decodeWord c = .error .reservedBits :=
  if_pos h

/-- With RSV = 0 an OP above 4 rejects a word (R103). -/
theorem decodeWord_of_fieldOp_gt_four {c : Word} (hrsv : fieldRsv c = 0) (hop : 4 < (fieldOp c).toNat) :
    decodeWord c = .error .reservedOp := by
  have hne : ∀ k : BitVec 4, k.toNat ≤ 4 → fieldOp c ≠ k := by
    rintro k hk rfl
    omega
  simp [decodeWord, hrsv, hne]

/-- With RSV = 0 a word is the one of the command that its OP is the code of (R100, R101). -/
theorem decodeWord_of_fieldOp_eq {c : Word} {i : Instr} (hrsv : fieldRsv c = 0) (hop : fieldOp c = opcodeOf i) :
    decodeWord c = .ok i := by
  have hc : c = encode i := by rw [← fieldRsv_append_fieldOp c, hrsv, hop]; rfl
  rw [hc, decodeWord_encode]

/-- Settles O2: a word is rejected for its RSV, has the OP of a command, or is rejected for its OP. -/
theorem decoderIsTotalAsR116 : Obligations.DecoderIsTotalAsR116 := by
  intro c
  split
  next hrsv => exact decodeWord_of_fieldRsv_ne_zero (mt (fieldRsv_eq_zero_iff c).mp hrsv)
  next hrsv =>
    have hrsv' : fieldRsv c = 0 := (fieldRsv_eq_zero_iff c).mpr (not_not.mp hrsv)
    split
    case h_6 =>
      refine decodeWord_of_fieldOp_gt_four hrsv' ?_
      rw [fieldOp_toNat]
      grind only
    all_goals
      refine decodeWord_of_fieldOp_eq hrsv' (BitVec.eq_of_toNat_eq ?_)
      rw [fieldOp_toNat]
      assumption

/-- Settles O1: five words are commands' own, and two are rejected by the field that R102 or R103 names. -/
theorem opcodeMapWords : Obligations.OpcodeMapWords :=
  ⟨decodeWord_encode .nop, decodeWord_encode .decode, decodeWord_encode .split, decodeWord_encode .recon, decodeWord_encode .pipe,
    decodeWord_of_fieldOp_gt_four (by decide) (by decide), decodeWord_of_fieldRsv_ne_zero (by decide)⟩

/-! ### Gains -/

/-- A gain that is not negative is 4096 times itself, rounded to nearest and capped (R113). -/
theorem gainOfRational_natCast (n : Nat) {den : Nat} (hden : 0 < den) :
    gainOfRational n den = some (BitVec.ofNat 16 (min 65535 ((2 * n * 4096 + den) / (2 * den)))) := by
  have hneg : ¬((n : Int) < 0 ∨ den = 0) := by omega
  rw [gainOfRational, if_neg hneg, Int.toNat_natCast]

/-- Rounding recovers G from G / 4096, whatever factor the fraction is expanded by. -/
theorem round_gain_fraction (G : Nat) {d : Nat} (hd : 0 < d) : (2 * (G * d) * 4096 + 4096 * d) / (2 * (4096 * d)) = G := by
  have hnum : 2 * (G * d) * 4096 + 4096 * d = 2 * (4096 * d) * G + 4096 * d := by ring
  have hhalf : 4096 * d / (2 * (4096 * d)) = 0 := Nat.div_eq_of_lt (by omega)
  rw [hnum, Nat.mul_add_div (by omega), hhalf, Nat.add_zero]

/-- Settles O60: representable gains are recovered by the rounding, gains from 16 meet the cap, and negative ones the refusal. -/
theorem gainConversionIsExact : Obligations.GainConversionIsExact := by
  refine ⟨fun G d hd => ?representable, fun num den hden hnum => ?saturated, fun num den hneg => if_pos (.inl hneg)⟩
  case representable =>
    have hcap : min 65535 G.toNat = G.toNat := Nat.min_eq_right (Nat.le_of_lt_succ G.isLt)
    rw [← Int.natCast_mul, gainOfRational_natCast _ (by omega), round_gain_fraction _ hd, hcap, BitVec.ofNat_toNat, BitVec.setWidth_eq]
  case saturated =>
    obtain ⟨n, rfl⟩ := Int.eq_ofNat_of_zero_le (show 0 ≤ num by omega)
    have hcap : 65535 ≤ (2 * n * 4096 + den) / (2 * den) := (Nat.le_div_iff_mul_le (by omega)).mpr (by omega)
    rw [gainOfRational_natCast n hden, Nat.min_eq_left hcap]
    rfl

end Sys2Proof.Proofs
end

section
/-! The descriptor: the bytes of a row (R132), an encoding without a layout (R140), and the first failed check, shown by DESC_CHECK and met by
DECODE (R135 to R137). -/

namespace Sys2Proof.Proofs

open Sys2Proof.Machine Sys2Proof.Claims Sys2Proof.Laws

/-! ### The bytes of a row -/

/-- Four raw10 samples take five bytes, and n of a partial group n + 1 (R132). -/
theorem rowBytes_raw10_groups (w : Nat) : rowBytes w (some .raw10) = 5 * (w / 4) + (if w % 4 = 0 then 0 else w % 4 + 1) := by
  dsimp only [rowBytes]
  split <;> omega

/-- Two raw12 samples take three bytes, and a single last one two (R132). -/
theorem rowBytes_raw12_groups (w : Nat) : rowBytes w (some .raw12) = 3 * (w / 2) + (if w % 2 = 0 then 0 else 2) := by
  dsimp only [rowBytes]
  split <;> omega

/-- Settles O12: the spec's quotients are the counts by groups. -/
theorem rowBytesCountPartialGroups : Obligations.RowBytesCountPartialGroups := fun w =>
  ⟨rfl, rfl, rfl, rfl, rfl, rowBytes_raw10_groups w, rowBytes_raw12_groups w, rowBytes_le w⟩

/-! ### The first failed check -/

theorem descCheck_of_invalidDim {p : Params} {g : Regs} (hdim : g.InvalidDim p) : descCheck p g = some .invalidDimension := if_pos hdim

theorem descCheck_of_unsupEnc {p : Params} {g : Regs} (hdim : ¬g.InvalidDim p) (henc : g.UnsupEnc) :
    descCheck p g = some .unsupportedEncoding :=
  (if_neg hdim).trans (if_pos henc)

theorem descCheck_of_truncated {p : Params} {g : Regs} (hdim : ¬g.InvalidDim p) (henc : ¬g.UnsupEnc) (hlen : g.inLen.toNat < g.reqLen) :
    descCheck p g = some .truncatedInput :=
  (if_neg hdim).trans ((if_neg henc).trans (if_pos hlen))

theorem decodeBody_error {s : State} {e : Err} (hcheck : descCheck s.params s.regs = some e) :
    decodeBody s = ({ s with regs := s.regs.invalidateAll }, some e) := by
  rcases decodeBody_cases s with ⟨e', he', hb⟩ | ⟨L, hok, -, -⟩
  · obtain rfl := Option.some.inj (hcheck.symm.trans he')
    exact hb
  · exact absurd (hcheck.symm.trans hok) (Option.some_ne_none e)

/-- The register and the command agree on a failed check: DESC_CHECK shows its code, and DECODE completes with it, clears the validity bits
and keeps the rest (R43, R48, R150). -/
theorem decode_fails_of_descCheck {s : State} {e : Err} (hcheck : descCheck s.params s.regs = some e) :
    readReg .descCheck s = 0#28 ++ codeOf (some e) ∧
    exec .decode s = .next { s with
      pending := none
      regs := { s.regs with
        done := true, err := true, errcode := codeOf (some e), planeV := false, chV := false, rgbV := false } } := by
  constructor
  · rw [← hcheck]
    rfl
  · rw [exec_eq, bodyOf, decodeBody_error hcheck]
    rfl

/-- Settles O14: each clause fixes which check fails first. -/
theorem decodeReportsFirstFailedCheck : Obligations.DecodeReportsFirstFailedCheck := by
  intro s
  refine ⟨fun hdim => ?_, fun hdim henc => ?_, fun hdim henc hlen => ?_, fun hdim henc hlen => ?_⟩
  · exact decode_fails_of_descCheck (descCheck_of_invalidDim hdim)
  · exact decode_fails_of_descCheck (descCheck_of_unsupEnc hdim henc)
  · exact decode_fails_of_descCheck (descCheck_of_truncated hdim henc hlen)
  · have hcheck : descCheck s.params s.regs = none := (descCheck_eq_none _ _).mpr ⟨hdim, henc, hlen⟩
    apply BitVec.eq_of_toNat_eq
    rw [readReg_descCheck_toNat, hcheck]
    rfl

/-! ### An unmatched encoding -/

theorem eq_none_of_layoutCode {L : Option Layout} (h : (layoutCode L).toNat = 7) : L = none := by
  rcases L with _ | L
  · rfl
  · cases L <;> exact absurd h (by decide)

/-- With no override only ENC below 4 has a layout (R131). -/
theorem layout_eq_none_of_unmatched {g : Regs} (henc : 4 ≤ g.enc.toNat) (hovr : g.bppOvr = 0) : g.layout = none := by
  apply eq_none_of_layoutCode
  rw [layoutCode_toNat, if_neg (by omega), hovr]
  rfl

/-- The default depth (R130). -/
theorem effBpp_of_unmatched {g : Regs} (henc : 5 ≤ g.enc.toNat) (hovr : g.bppOvr = 0) : g.effBpp = 16 := by
  rw [effBpp_eq, hovr, if_neg (by decide)]
  split
  case h_6 => rfl
  all_goals omega

/-- A descriptor with no layout fails a check, the dimensions' or its own (R136). -/
theorem descCheck_of_no_layout {g : Regs} (hlay : g.layout = none) (p : Params) : ∃ e, descCheck p g = some e := by
  refine Option.ne_none_iff_exists'.mp fun hok => ?_
  obtain ⟨L, hL⟩ := layout_of_descCheck p g hok
  exact absurd (hlay.symm.trans hL) (Option.some_ne_none L).symm

/-- Settles O13: with no layout the checks fail, so the default depth is shown but never used. -/
theorem unmatchedEncodingNeverDecodes : Obligations.UnmatchedEncodingNeverDecodes := by
  intro s henc hovr
  have hlay := layout_eq_none_of_unmatched (le_of_lt henc) hovr
  obtain ⟨e, hcheck⟩ := descCheck_of_no_layout hlay s.params
  obtain ⟨-, hexec⟩ := decode_fails_of_descCheck hcheck
  refine ⟨?_, hlay, _, hexec, codeOf_some_ne e, fun i => rfl⟩
  rw [readReg_deriv_toNat, effBpp_of_unmatched henc hovr]
  omega

end Sys2Proof.Proofs
end

section
/-! Raw samples and the rescale: the depth a sample is rescaled at (R130), the quotient of R156, and the bits of IN that a raw sample
depends on (R159 to R163). -/

namespace Sys2Proof.Proofs

open Sys2Proof.Machine Sys2Proof.Claims Sys2Proof.Laws

/-! ### The effective depth -/

theorem effBpp_of_override {g : Regs} (hovr : 0 < g.bppOvr.toNat) : g.effBpp = g.bppOvr.toNat := if_pos hovr

/-- With no override only ENC below 4 gives a layout, and the depth is then the layout's own (R130, R131). -/
theorem effBpp_of_no_override {g : Regs} {L : Layout} (hovr : g.bppOvr = 0) (hlay : g.layout = some L) : g.effBpp = layoutBits L := by
  revert hlay
  unfold Regs.effBpp Regs.layout
  rw [hovr]
  generalize g.enc = enc
  cases L <;> decide +revert

/-! ### The quotient of R156 -/

/-- The divisor of R156 is odd. -/
theorem odd_maxRaw {bpp : Nat} (h : 1 ≤ bpp) : Odd (2 ^ bpp - 1) :=
  Nat.Even.sub_odd Nat.one_le_two_pow (Nat.even_pow.mpr ⟨even_two, by omega⟩) odd_one

/-- The quotient is the nearest integer to raw * 65535 / M, and half a step away at most. -/
theorem scaleQuotient_bounds (raw : Nat) {bpp : Nat} (h : 1 ≤ bpp) :
    2 * scaleQuotient raw bpp * (2 ^ bpp - 1) ≤ 2 * raw * 65535 + (2 ^ bpp - 1) ∧
    2 * raw * 65535 < 2 * scaleQuotient raw bpp * (2 ^ bpp - 1) + (2 ^ bpp - 1) := by
  have hM := maxRaw_pos bpp h
  rw [scaleQuotient_eq]
  generalize 2 ^ bpp - 1 = M at hM
  have hdiv := Nat.div_add_mod (2 * raw * 65535 + M) (2 * M)
  have hmod := Nat.mod_lt (2 * raw * 65535 + M) (show 0 < 2 * M by omega)
  rw [Nat.mul_right_comm 2 M] at hdiv
  omega

/-- Settles O21: M is odd and 2 * raw * 65535 even, so no odd multiple of M meets it, and the quotient's lower bound is strict. -/
theorem rescaleNeverTies : Obligations.RescaleNeverTies := by
  intro raw bpp h1 h16
  have hodd := odd_maxRaw h1
  have heven : ∀ m n, Even (2 * m * n) := fun m n => mul_assoc 2 m n ▸ even_two_mul (m * n)
  obtain ⟨hle, hlt⟩ := scaleQuotient_bounds raw h1
  refine ⟨fun k htie => ?_, lt_of_le_of_ne hle fun htie => ?_, hlt⟩
  · have : Odd (2 * raw * 65535) := htie ▸ (odd_two_mul_add_one k).mul hodd
    exact Nat.not_even_iff_odd.mpr this (heven raw 65535)
  · have : Odd (2 * raw * 65535 + (2 ^ bpp - 1)) := (heven raw 65535).add_odd hodd
    exact Nat.not_even_iff_odd.mpr this (htie ▸ heven _ _)

theorem scaleQuotient_mono {raw raw' : Nat} (h : raw ≤ raw') (bpp : Nat) : scaleQuotient raw bpp ≤ scaleQuotient raw' bpp := by
  simp only [scaleQuotient_eq]
  exact Nat.div_le_div_right (by omega)

theorem scaleQuotient_zero {bpp : Nat} (h : 1 ≤ bpp) : scaleQuotient 0 bpp = 0 := by
  have hM := maxRaw_pos bpp h
  rw [scaleQuotient_eq]
  exact Nat.div_eq_of_lt (by omega)

theorem scaleQuotient_maxRaw {bpp : Nat} (h : 1 ≤ bpp) : scaleQuotient (2 ^ bpp - 1) bpp = 65535 := by
  have hM := maxRaw_pos bpp h
  rw [scaleQuotient_eq]
  generalize 2 ^ bpp - 1 = M at hM
  exact Nat.div_eq_of_lt_le (by omega) (by omega)

/-- The sample that is stored, as the statements write it (R156). -/
theorem scale_fst_eq_rescaled (raw bpp : Nat) : (scale raw bpp).1.toNat = rescaled raw bpp :=
  (scale_fst raw bpp).trans (Nat.min_comm _ _)

theorem scale_mono {raw raw' : Nat} (h : raw ≤ raw') (bpp : Nat) : (scale raw bpp).1.toNat ≤ (scale raw' bpp).1.toNat := by
  simp only [scale_fst]
  exact min_le_min_right _ (scaleQuotient_mono h bpp)

theorem scale_zero {bpp : Nat} (h : 1 ≤ bpp) : (scale 0 bpp).1 = 0 :=
  BitVec.eq_of_toNat_eq (by rw [scale_fst, scaleQuotient_zero h]; rfl)

theorem layoutBits_bounds (L : Layout) : 1 ≤ layoutBits L ∧ layoutBits L ≤ 16 := by cases L <;> decide

theorem unpack_le_maxRaw (L : Layout) (byteAt : Nat → Byte) (g : Regs) (base c : Nat) :
    unpack L byteAt g base c ≤ 2 ^ layoutBits L - 1 :=
  Nat.le_sub_one_of_lt (unpack_lt L byteAt g base c)

/-- Settles O22: the quotient is monotone in the raw value, and at the layout's own depth no raw value is over range. -/
theorem rawRangesAndMonotoneRescale : Obligations.RawRangesAndMonotoneRescale := by
  intro L
  obtain ⟨h1, h16⟩ := layoutBits_bounds L
  have hinRange : ∀ raw, raw ≤ 2 ^ layoutBits L - 1 → (scale raw (layoutBits L)).2 = false := fun raw hraw =>
    Bool.eq_false_iff.mpr (mt (scale_overflow_iff raw _ h1 h16).mp (not_lt.mpr hraw))
  have hmax : (scale (2 ^ layoutBits L - 1) (layoutBits L)).1.toNat = 65535 := by
    rw [scale_fst, scaleQuotient_maxRaw h1, Nat.min_self]
  exact ⟨unpack_le_maxRaw L, fun _ => effBpp_of_no_override, fun _ raw' hle hraw' => ⟨scale_mono hle _, hinRange raw' hraw'⟩,
    congrArg BitVec.toNat (scale_zero h1), hmax⟩

/-! ### The bits a raw sample depends on -/

/-- Two byte sources agree on the used bits of the packed bytes of a row at `base` (R160). -/
def AgreeOnUsedBits (L : Layout) (width base : Nat) (f f' : Nat → Byte) : Prop :=
  ∀ k, k < rowBytes width (some L) →
    (f (base + k)).toNat % 2 ^ usedBits L width k = (f' (base + k)).toNat % 2 ^ usedBits L width k

/-- A field of e bits at bit d depends on the d + e low bits only. -/
theorem field_eq_of_mod_eq {x y u d e : Nat} (h : x % 2 ^ u = y % 2 ^ u) (hu : d + e ≤ u) : x / 2 ^ d % 2 ^ e = y / 2 ^ d % 2 ^ e := by
  have hlow : x % 2 ^ (d + e) = y % 2 ^ (d + e) := by
    rw [← Nat.mod_mod_of_dvd x (Nat.pow_dvd_pow 2 hu), h, Nat.mod_mod_of_dvd y (Nat.pow_dvd_pow 2 hu)]
  rw [← Nat.mod_mul_right_div_self, ← Nat.mod_mul_right_div_self, ← Nat.pow_add, hlow]

/-- A packed byte all of whose bits are used is the same byte in both sources. -/
theorem AgreeOnUsedBits.byte_eq {L : Layout} {width base : Nat} {f f' : Nat → Byte} (h : AgreeOnUsedBits L width base f f') {k : Nat}
    (hk : k < rowBytes width (some L)) (hused : usedBits L width k = 8) : f (base + k) = f' (base + k) := by
  have hmod := h k hk
  rw [hused] at hmod
  exact BitVec.eq_of_toNat_eq (by rwa [Nat.mod_eq_of_lt (f _).isLt, Nat.mod_eq_of_lt (f' _).isLt] at hmod)

/-- Every byte of a row but the last is used whole. -/
theorem usedBits_of_not_last {L : Layout} {width k : Nat} (h : k + 1 < rowBytes width (some L)) : usedBits L width k = 8 :=
  if_neg (Nat.ne_of_lt h)

/-- A sample made of a high byte before the last of the row and of field j, b bits wide, of a low byte is the same from both sources. -/
theorem AgreeOnUsedBits.sample_eq {L : Layout} {width base : Nat} {f f' : Nat → Byte} (h : AgreeOnUsedBits L width base f f')
    {high low j : Nat} (b : Nat) (hhigh : high + 1 < rowBytes width (some L)) (hlow : low < rowBytes width (some L))
    (hused : b * j + b ≤ usedBits L width low) :
    2 ^ b * (f (base + high)).toNat + (f (base + low)).toNat / (2 ^ b) ^ j % 2 ^ b =
      2 ^ b * (f' (base + high)).toNat + (f' (base + low)).toNat / (2 ^ b) ^ j % 2 ^ b := by
  rw [h.byte_eq (Nat.lt_of_succ_lt hhigh) (usedBits_of_not_last hhigh), ← Nat.pow_mul, field_eq_of_mod_eq (h low hlow) hused]

theorem usedBits_raw8 (width k : Nat) : usedBits .raw8 width k = 8 := ite_self _

theorem usedBits_raw10 (width k : Nat) : usedBits .raw10 width k =
    if k + 1 = rowBytes width (some .raw10) then if width % 4 = 0 then 8 else 2 * (width % 4) else 8 := rfl

theorem usedBits_raw12 (width k : Nat) : usedBits .raw12 width k =
    if k + 1 = rowBytes width (some .raw12) then if width % 2 = 0 then 8 else 4 else 8 := rfl

theorem usedBits_raw16 (width k : Nat) : usedBits .raw16 width k = 8 := ite_self _

/-- The high byte of a raw10 sample is never the last byte of its row (R153). -/
theorem raw10_high_lt {width c : Nat} (hc : c < width) : 5 * (c / 4) + c % 4 + 1 < rowBytes width (some .raw10) := by
  dsimp only [rowBytes]
  omega

/-- The low-bits byte of a raw10 group is in the row, and the two bits of each sample present are used (R153). -/
theorem raw10_low_used {width c : Nat} (hc : c < width) :
    5 * (c / 4) + min 4 (width - 4 * (c / 4)) < rowBytes width (some .raw10) ∧
    2 * (c % 4) + 2 ≤ usedBits .raw10 width (5 * (c / 4) + min 4 (width - 4 * (c / 4))) := by
  have hrow : rowBytes width (some .raw10) = (10 * width + 7) / 8 := rfl
  refine ⟨by omega, ?_⟩
  rw [usedBits_raw10]
  split_ifs <;> omega

/-- The high byte of a raw12 sample is never the last byte of its row (R154). -/
theorem raw12_high_lt {width c : Nat} (hc : c < width) : 3 * (c / 2) + c % 2 + 1 < rowBytes width (some .raw12) := by
  dsimp only [rowBytes]
  omega

/-- The low byte of a raw12 group is in the row, and the nibble of each sample present is used (R154). -/
theorem raw12_low_used {width c : Nat} (hc : c < width) :
    3 * (c / 2) + min 2 (width - 2 * (c / 2)) < rowBytes width (some .raw12) ∧
    4 * (c % 2) + 4 ≤ usedBits .raw12 width (3 * (c / 2) + min 2 (width - 2 * (c / 2))) := by
  have hrow : rowBytes width (some .raw12) = (12 * width + 7) / 8 := rfl
  refine ⟨by omega, ?_⟩
  rw [usedBits_raw12]
  split_ifs <;> omega

/-- A raw sample depends on the used bits of its row's packed bytes only (R159, R160). -/
theorem unpack_congr {L : Layout} {g : Regs} {base : Nat} {f f' : Nat → Byte} (h : AgreeOnUsedBits L g.width.toNat base f f') {c : Nat}
    (hc : c < g.width.toNat) : unpack L f g base c = unpack L f' g base c := by
  cases L with
  | raw8 => exact congrArg BitVec.toNat (h.byte_eq hc (usedBits_raw8 _ c))
  | raw10 =>
    obtain ⟨hlow, hused⟩ := raw10_low_used hc
    simp only [unpack, unpackRaw10_eq, Nat.add_assoc]
    exact h.sample_eq 2 (raw10_high_lt hc) hlow hused
  | raw12 =>
    obtain ⟨hlow, hused⟩ := raw12_low_used hc
    simp only [unpack, unpackRaw12_eq, Nat.add_assoc]
    exact h.sample_eq 4 (raw12_high_lt hc) hlow hused
  | raw16 =>
    have hfirst := h.byte_eq (k := 2 * c) (show _ < 2 * _ by omega) (usedBits_raw16 _ _)
    have hsecond := h.byte_eq (k := 2 * c + 1) (show _ < 2 * _ by omega) (usedBits_raw16 _ _)
    simp only [unpack, unpackRaw16, Nat.add_assoc, hfirst, hsecond]

/-- Equal packed bytes give equal raw samples, whatever stands elsewhere (R159). -/
theorem unpack_congr_row {L : Layout} {g : Regs} {base : Nat} {f f' : Nat → Byte}
    (h : ∀ k, k < rowBytes g.width.toNat (some L) → f (base + k) = f' (base + k)) {c : Nat} (hc : c < g.width.toNat) :
    unpack L f g base c = unpack L f' g base c :=
  unpack_congr (fun k hk => by rw [h k hk]) hc

/-- Zero bytes unpack to zero in every layout (R161). -/
theorem unpack_zero (L : Layout) (g : Regs) (base c : Nat) : unpack L (fun _ => 0) g base c = 0 := by
  cases L <;> simp [unpack, unpackRaw8, unpackRaw10, unpackRaw12, unpackRaw16]

end Sys2Proof.Proofs
end

section
/-! DECODE of a descriptor that passes its checks: how it completes, the plane samples of each layout, and which bytes of IN they depend on
(R150 to R161). -/

namespace Sys2Proof.Proofs

open Sys2Proof.Machine Sys2Proof.Claims Sys2Proof.Laws

/-! ### Completion -/

theorem descCheck_of_ready {L : Layout} {s : State} (h : DecodeReady L s) : descCheck s.params s.regs = none := by
  obtain ⟨hlay, hw, hw', hh, hh', hdepth, hlen⟩ := h
  refine (descCheck_eq_none _ _).mpr ⟨by unfold Regs.InvalidDim; omega, ?_, hlen⟩
  simp [Regs.UnsupEnc, hlay, hdepth]

/-- DECODE with its checks passed writes the plane and completes with no error (R150). -/
theorem exec_decode_of_checks {L : Layout} {s : State} (hcheck : descCheck s.params s.regs = none) (hlay : s.regs.layout = some L) :
    exec .decode s = .next (complete none (decodePlane L s)) := by
  rw [exec_eq, bodyOf, decodeBody_ok s L hcheck hlay]

theorem exec_decode_of_ready {L : Layout} {s : State} (h : DecodeReady L s) :
    exec .decode s = .next (complete none (decodePlane L s)) :=
  exec_decode_of_checks (descCheck_of_ready h) h.layout

@[simp] theorem readPlane_complete (e : Option Err) (s : State) (i : Nat) : (complete e s).readPlane i = s.readPlane i := rfl

/-- Settles O15: the body writes the plane's extent and the registers named, and completion the flags. -/
theorem decodeCompletesAndKeepsTheRest : Obligations.DecodeCompletesAndKeepsTheRest := fun s L h =>
  ⟨_, exec_decode_of_ready h, rfl, readPlane_decodePlane_beyond L s⟩

/-! ### The plane samples of each layout -/

/-- A raw sample of a known layout, at the row base of R151 written out. -/
theorem rawSample_of_layout {L : Layout} {s : State} (hlay : s.regs.layout = some L) (r c : Nat) :
    s.rawSample L r c = unpack L s.readIn s.regs (s.regs.header.toNat
      + r * (rowBytes s.regs.width.toNat (some L) + s.regs.lpad.toNat + s.regs.rpad.toNat) + s.regs.lpad.toNat) c := by
  rw [State.rawSample, Regs.rowBase, Regs.stride, hlay]

/-- DECODE leaves the rescaled raw samples in the plane, by whatever expression the raw samples are known (R150, R158). -/
theorem planeHolds_decode {L : Layout} {s : State} {raw : Nat → Nat → Nat} (h : DecodeReady L s)
    (hraw : ∀ r c, s.rawSample L r c = raw r c) : ∃ t, exec .decode s = .next t ∧ PlaneHolds s t raw := by
  refine ⟨_, exec_decode_of_ready h, fun r c hr hc => ?_⟩
  rw [readPlane_complete, readPlane_decodePlane L s r c hr hc, scale_fst_eq_rescaled, hraw]

/-- Settles O16: a raw8 sample is its byte. -/
theorem decodeRaw8Samples : Obligations.DecodeRaw8Samples := fun _ h =>
  planeHolds_decode h (rawSample_of_layout h.layout)

/-- Settles O17, by R153 in arithmetic. -/
theorem decodeRaw10Samples : Obligations.DecodeRaw10Samples := fun _ h =>
  planeHolds_decode h fun r c => (rawSample_of_layout h.layout r c).trans (unpackRaw10_eq ..)

/-- Settles O18, by R154 in arithmetic. -/
theorem decodeRaw12Samples : Obligations.DecodeRaw12Samples := fun _ h =>
  planeHolds_decode h fun r c => (rawSample_of_layout h.layout r c).trans (unpackRaw12_eq ..)

/-- Settles O19, by R155 in arithmetic. -/
theorem decodeRaw16Samples : Obligations.DecodeRaw16Samples := fun _ h =>
  planeHolds_decode h fun r c => (rawSample_of_layout h.layout r c).trans (unpackRaw16_eq ..)

/-! ### Saturation -/

/-- SATF after a DECODE: whether a raw value is over range (R157). -/
theorem satf_decodePlane_iff {L : Layout} {s : State} (h : DecodeReady L s) :
    (decodePlane L s).regs.satf = true ↔
      ∃ r c, r < s.regs.height.toNat ∧ c < s.regs.width.toNat ∧ 2 ^ s.regs.effBpp - 1 < s.rawSample L r c := by
  obtain ⟨h1, h16⟩ := effBpp_range s.regs h.depth_le
  simp only [satf_decodePlane, scale_overflow_iff _ _ h1 h16]

/-- Only an override below the layout's own depth lets a raw sample be over range (R157). -/
theorem override_of_over_range {L : Layout} {s : State} (hlay : s.regs.layout = some L) {r c : Nat}
    (hover : 2 ^ s.regs.effBpp - 1 < s.rawSample L r c) : 0 < s.regs.bppOvr.toNat ∧ s.regs.bppOvr.toNat < layoutBits L := by
  have hdepth : s.regs.effBpp < layoutBits L := by
    by_contra hge
    have hpow : 2 ^ layoutBits L ≤ 2 ^ s.regs.effBpp := Nat.pow_le_pow_right (by decide) (not_lt.mp hge)
    have hraw : s.rawSample L r c < 2 ^ layoutBits L := unpack_lt L _ _ _ _
    omega
  have hovr : 0 < s.regs.bppOvr.toNat := by
    by_contra hzero
    have hbits := effBpp_of_no_override (BitVec.eq_of_toNat_eq (Nat.eq_zero_of_not_pos hzero)) hlay
    exact absurd hbits hdepth.ne
  exact ⟨hovr, effBpp_of_override hovr ▸ hdepth⟩

/-- Settles O20: the quotient exceeds 65535 exactly for a raw value over range, and the stored sample is then clamped. -/
theorem satfMarksOverRangeSamples : Obligations.SatfMarksOverRangeSamples := by
  intro s L h
  obtain ⟨h1, h16⟩ := effBpp_range s.regs h.depth_le
  have hquot : ∀ raw, 65535 < scaleQuotient raw s.regs.effBpp ↔ 2 ^ s.regs.effBpp - 1 < raw := fun raw =>
    (scale_snd raw _).symm.trans (scale_overflow_iff raw _ h1 h16)
  refine ⟨_, exec_decode_of_ready h, satf_decodePlane_iff h, fun r c hr hc => ⟨hquot _, fun hover => ?_⟩, fun hsatf => ?_⟩
  · rw [readPlane_complete, readPlane_decodePlane L s r c hr hc, scale_fst]
    exact min_eq_right ((hquot _).mpr hover).le
  · obtain ⟨r, c, -, -, hover⟩ := (satf_decodePlane_iff h).mp hsatf
    exact override_of_over_range h.layout hover

/-! ### The bytes that DECODE reads -/

/-- The packed bytes of every row end at or below the required length (R134, R151). -/
theorem row_end_le_reqLen {g : Regs} {L : Layout} (hlay : g.layout = some L) {r : Nat} (hr : r < g.height.toNat) :
    g.rowBase r + rowBytes g.width.toNat (some L) ≤ g.reqLen := by
  have hrows : (r + 1) * g.stride ≤ g.height.toNat * g.stride := Nat.mul_le_mul_right _ hr
  have hstride : g.stride = rowBytes g.width.toNat (some L) + g.lpad.toNat + g.rpad.toNat := by rw [Regs.stride, hlay]
  rw [Nat.succ_mul] at hrows
  unfold Regs.rowBase Regs.reqLen
  omega

/-- Settles O23: a row lies below the required length, and its samples depend on its own packed bytes. -/
theorem decodeReadsStayInBounds : Obligations.DecodeReadsStayInBounds := fun _ _ hinv h _ hr =>
  ⟨row_end_le_reqLen h.layout hr, h.length_le, hinv.geometry.inLen, fun _ _ hc hsame => unpack_congr_row hsame hc⟩

/-- A plane element of the extent, by its index (R158). -/
theorem readPlane_decodePlane_of_lt (L : Layout) (s : State) {i : Nat} (hi : i < s.regs.width.toNat * s.regs.height.toNat) :
    (decodePlane L s).readPlane i = (scale (s.rawSample L (i / s.regs.width.toNat) (i % s.regs.width.toNat)) s.regs.effBpp).1 := by
  obtain ⟨hr, hc, hsplit⟩ := grid_split hi
  rw [← readPlane_decodePlane L s _ _ hr hc, hsplit]

section SameSamples
variable {L : Layout} {s s' : State} (hregs : s'.regs = s.regs)
  (hraw : ∀ r c, r < s.regs.height.toNat → c < s.regs.width.toNat → s'.rawSample L r c = s.rawSample L r c)
include hregs hraw

/-- Equal raw samples under equal registers saturate alike, so they leave equal registers (R157). -/
theorem decodePlane_regs_congr : (decodePlane L s').regs = (decodePlane L s).regs := by
  have hsatf : (decodePlane L s').regs.satf = (decodePlane L s).regs.satf := by
    rw [Bool.eq_iff_iff, satf_decodePlane, satf_decodePlane, hregs]
    refine exists_congr fun r => exists_congr fun c => and_congr_right fun hr => and_congr_right fun hc => ?_
    rw [hraw r c hr hc]
  rw [decodePlane_regs L s', decodePlane_regs L s, hsatf, hregs]

/-- Equal raw samples under equal registers give equal planes in the extent (R158). -/
theorem readPlane_decodePlane_congr {i : Nat} (hi : i < s.regs.width.toNat * s.regs.height.toNat) :
    (decodePlane L s').readPlane i = (decodePlane L s).readPlane i := by
  obtain ⟨hr, hc, -⟩ := grid_split hi
  rw [readPlane_decodePlane_of_lt L s hi, readPlane_decodePlane_of_lt L s' (hregs ▸ hi), hregs, hraw _ _ hr hc]

end SameSamples

/-- Settles O24: the raw samples depend on the used bits only, and the plane and SATF on the raw samples. -/
theorem decodeIgnoresUnusedBytes : Obligations.DecodeIgnoresUnusedBytes := by
  intro s s' L h hregs hparams hagree
  have hraw : ∀ r c, r < s.regs.height.toNat → c < s.regs.width.toNat → s'.rawSample L r c = s.rawSample L r c := by
    intro r c hr hc
    rw [State.rawSample, hregs]
    exact unpack_congr (fun k hk => hagree r k hr hk) hc
  have hcheck : descCheck s'.params s'.regs = none := by
    rw [hparams, hregs]
    exact descCheck_of_ready h
  refine ⟨_, _, exec_decode_of_ready h, exec_decode_of_checks hcheck (hregs ▸ h.layout), ?_,
    fun i hi => readPlane_decodePlane_congr hregs hraw hi⟩
  rw [complete_regs, complete_regs, decodePlane_regs_congr hregs hraw]

/-- Settles O25: the packed bytes are those of an all-zero source, and 0 rescales to 0 at every depth. -/
theorem allZeroInputGivesZeroPlane : Obligations.AllZeroInputGivesZeroPlane := by
  intro s L h hzero
  have hraw : ∀ r c, r < s.regs.height.toNat → c < s.regs.width.toNat → s.rawSample L r c = 0 := fun r c hr hc =>
    (unpack_congr_row (fun k hk => hzero r k hr hk) hc).trans (unpack_zero L _ _ c)
  refine ⟨hraw, _, exec_decode_of_ready h, Bool.eq_false_iff.mpr fun hsatf => ?_, fun i hi => ?_⟩
  · obtain ⟨r, c, hr, hc, hover⟩ := (satf_decodePlane_iff h).mp hsatf
    rw [hraw r c hr hc] at hover
    exact Nat.not_lt_zero _ hover
  · obtain ⟨hr, hc, -⟩ := grid_split hi
    rw [readPlane_complete, readPlane_decodePlane_of_lt L s hi, hraw _ _ hr hc, scale_zero (effBpp_range s.regs h.depth_le).1]

end Sys2Proof.Proofs
end

section
/-! SPLIT: its two errors, how it completes, which quadrant of the plane goes to which channel, and which elements it reads and writes
(R180 to R185). -/

namespace Sys2Proof.Proofs

open Sys2Proof.Machine Sys2Proof.Claims Sys2Proof.Laws

/-! ### The two errors -/

theorem splitBody_not_ready {s : State} (hv : s.regs.planeV = false) :
    splitBody s = ({ s with regs := s.regs.invalidateFromCh }, some .notReady) :=
  if_pos hv

theorem splitBody_bad_order {s : State} (hv : s.regs.planeV = true) (ho : bayerOrderOf s.regs.bayer = none) :
    splitBody s = ({ s with regs := s.regs.invalidateFromCh }, some .unsupportedBayerOrder) := by
  simp [splitBody, hv, ho]

/-- A SPLIT whose body fails completes with the error's code, clears CH_V and RGB_V and keeps the rest (R48, R180). -/
theorem split_fails_of_splitBody {s : State} {e : Err} (hb : splitBody s = ({ s with regs := s.regs.invalidateFromCh }, some e)) :
    exec .split s = .next { s with
      pending := none
      regs := { s.regs with done := true, err := true, errcode := codeOf (some e), chV := false, rgbV := false } } := by
  rw [exec_eq, bodyOf, hb]
  rfl

/-- Settles O26: each clause fixes which check fails first. -/
theorem splitReportsFirstFailedCheck : Obligations.SplitReportsFirstFailedCheck := fun _ =>
  ⟨fun hv => split_fails_of_splitBody (splitBody_not_ready hv),
    fun hv hbayer => split_fails_of_splitBody (splitBody_bad_order hv (bayerOrderOf_none _ hbayer))⟩

/-! ### Completion -/

/-- SPLIT with its checks passed writes the channels and completes with no error (R180). -/
theorem exec_split_of_order {s : State} {o : BayerOrder} (hv : s.regs.planeV = true) (ho : bayerOrderOf s.regs.bayer = some o) :
    exec .split s = .next (complete none (splitChannels o s)) := by
  rw [exec_eq, bodyOf, splitBody_ok s o hv ho]

theorem readCh_congr {s t : State} {role : Role} (hch : t.ch role = s.ch role) (i : Nat) : t.readCh role i = s.readCh role i := by
  rw [State.readCh, hch, State.readCh]

@[simp] theorem readCh_complete (e : Option Err) (s : State) (role : Role) (i : Nat) : (complete e s).readCh role i = s.readCh role i :=
  readCh_congr (ch_complete e s role) i

/-- Under each order a successful SPLIT writes the four channel memories, CH_W, CH_H and the flags, and nothing else (R180). -/
theorem complete_splitChannels_eq (o : BayerOrder) (s : State) :
    complete none (splitChannels o s) = { s with
      chR := (splitChannels o s).chR, chGr := (splitChannels o s).chGr, chGb := (splitChannels o s).chGb, chB := (splitChannels o s).chB
      pending := none
      regs := { s.regs with
        chW := (splitChannels o s).regs.chW, chH := (splitChannels o s).regs.chH
        chV := true, rgbV := false, done := true, err := false, errcode := 0 } } := by
  cases o <;> rfl

/-- Settles O28: the frame of the completed state, its geometry, and the channel elements beyond the extent. -/
theorem splitCompletesAndKeepsTheRest : Obligations.SplitCompletesAndKeepsTheRest := by
  intro s hv hbayer
  obtain ⟨o, ho⟩ := bayerOrderOf_some s.regs.bayer hbayer
  refine ⟨_, exec_split_of_order hv ho, complete_splitChannels_eq o s, splitChannels_chW o s, splitChannels_chH o s, fun role i hi => ?_⟩
  rw [readCh_complete, readCh_splitChannels_beyond o s role i hi]

/-! ### Quadrants and roles -/

/-- The order that each legal code names (R107). -/
theorem bayerOrderOf_code : ∀ code : BitVec 3,
    (code.toNat = 0 → bayerOrderOf code = some .grbg) ∧ (code.toNat = 1 → bayerOrderOf code = some .rggb) ∧
    (code.toNat = 2 → bayerOrderOf code = some .bggr) ∧ (code.toNat = 3 → bayerOrderOf code = some .gbrg) := by decide

/-- Settles O27: the code fixes the order, and under it each quadrant (a, b) goes to the channel of its role. -/
theorem splitSendsQuadrantsToRoles : Obligations.SplitSendsQuadrantsToRoles := by
  intro s hv hbayer
  obtain ⟨o, ho⟩ := bayerOrderOf_some s.regs.bayer hbayer
  obtain ⟨hgrbg, hrggb, hbggr, hgbrg⟩ := bayerOrderOf_code s.regs.bayer
  have horder : ∀ {o'}, bayerOrderOf s.regs.bayer = some o' → o = o' := fun ho' => Option.some.inj (ho.symm.trans ho')
  have hquad := readCh_splitChannels o s
  have hquads := And.intro (hquad false false) (And.intro (hquad false true) (And.intro (hquad true false) (hquad true true)))
  refine ⟨_, exec_split_of_order hv ho, fun hcode => ?_, fun hcode => ?_, fun hcode => ?_, fun hcode => ?_⟩
  · obtain rfl := horder (hgrbg hcode)
    exact hquads
  · obtain rfl := horder (hrggb hcode)
    exact hquads
  · obtain rfl := horder (hbggr hcode)
    exact hquads
  · obtain rfl := horder (hgbrg hcode)
    exact hquads

/-- A channel element of the extent, by its index (R180, R181). -/
theorem readCh_splitChannels_of_lt (o : BayerOrder) (s : State) (a b : Bool) {i : Nat}
    (hi : i < s.regs.planeW.toNat / 2 * (s.regs.planeH.toNat / 2)) :
    (splitChannels o s).readCh (roleOf o a b) i = s.readPlane (quadrantIndex s.regs.planeW.toNat (s.regs.planeW.toNat / 2) a b i) := by
  rw [State.readCh, ch_splitChannels, read_overwrite_inside _ _ _ _ _ hi]

/-- Settles O29: the geometry and the elements of a quadrant are written out from the plane, with no mention of the order. -/
theorem splitGeometryIgnoresOrder : Obligations.SplitGeometryIgnoresOrder := by
  intro s s' o o' hv ho ho' hs'
  generalize s'.regs.bayer = code at hs' ho'
  subst hs'
  refine ⟨_, _, exec_split_of_order hv ho, exec_split_of_order hv ho', splitChannels_chW o s, splitChannels_chH o s, ?_, ?_, ?_⟩
  · simp only [complete_regs, Regs.completeFlags, splitChannels_regs]
  · simp only [complete_regs, Regs.completeFlags, splitChannels_regs]
  · intro a b i hi
    replace hi : i < s.regs.planeW.toNat / 2 * (s.regs.planeH.toNat / 2) := by
      rwa [← splitChannels_chW o s, ← splitChannels_chH o s]
    rw [readCh_complete, readCh_complete, readCh_splitChannels_of_lt o s a b hi]
    exact readCh_splitChannels_of_lt o' _ a b hi

/-! ### Bounds -/

/-- An element of a quadrant is read from the plane's extent, odd dimensions included (R181, R185). -/
theorem quadrantIndex_lt {planeW planeH i : Nat} (a b : Bool) (hi : i < planeW / 2 * (planeH / 2)) :
    quadrantIndex planeW (planeW / 2) a b i < planeW * planeH := by
  obtain ⟨hy, hx, -⟩ := grid_split hi
  have ha := a.toNat_le
  have hb := b.toNat_le
  exact grid_lt (by omega) (by omega)

section SamePlane
variable {s s' : State} (hregs : s'.regs = s.regs) (hch : ∀ role, s'.ch role = s.ch role)
  (hplane : ∀ i, i < s.regs.planeW.toNat * s.regs.planeH.toNat → s'.readPlane i = s.readPlane i)
include hregs hch hplane

/-- The channels that a successful SPLIT leaves depend on the plane in its extent only (R185). -/
theorem readCh_splitChannels_congr (o : BayerOrder) (role : Role) (i : Nat) :
    (splitChannels o s').readCh role i = (splitChannels o s).readCh role i := by
  rcases lt_or_ge i (s.regs.planeW.toNat / 2 * (s.regs.planeH.toNat / 2)) with hi | hi
  · obtain ⟨a, b, rfl⟩ := roleOf_surjective o role
    rw [readCh_splitChannels_of_lt o s a b hi, readCh_splitChannels_of_lt o s' a b (hregs ▸ hi), hregs, hplane _ (quadrantIndex_lt a b hi)]
  · rw [readCh_splitChannels_beyond o s role i hi, readCh_splitChannels_beyond o s' role i (hregs ▸ hi), readCh_congr (hch role)]

/-- So do the channels after any SPLIT, which leaves them all where it fails (R180). -/
theorem readCh_splitBody_congr (role : Role) (i : Nat) : (splitBody s').1.readCh role i = (splitBody s).1.readCh role i := by
  rcases splitBody_cases s with ⟨hv, hb⟩ | ⟨hv, ho, hb⟩ | ⟨o, hv, ho, hb⟩ <;> rw [← hregs] at hv <;> rw [hb]
  · rw [splitBody_not_ready hv]
    exact readCh_congr (hch role) i
  · rw [splitBody_bad_order hv (hregs ▸ ho)]
    exact readCh_congr (hch role) i
  · rw [splitBody_ok s' o hv (hregs ▸ ho)]
    exact readCh_splitChannels_congr hregs hch hplane o role i

end SamePlane

/-- A channel element beyond the extent keeps its value, whichever way SPLIT ends (R180). -/
theorem readCh_splitBody_beyond (s : State) (role : Role) {i : Nat} (hi : s.regs.planeW.toNat / 2 * (s.regs.planeH.toNat / 2) ≤ i) :
    (splitBody s).1.readCh role i = s.readCh role i := by
  rcases splitBody_cases s with ⟨-, hb⟩ | ⟨-, -, hb⟩ | ⟨o, -, -, hb⟩ <;> rw [hb]
  · rfl
  · rfl
  · exact readCh_splitChannels_beyond o s role i hi

theorem splitBody_params (s : State) : (splitBody s).1.params = s.params := by
  rcases splitBody_cases s with ⟨-, hb⟩ | ⟨-, -, hb⟩ | ⟨o, -, -, hb⟩ <;> rw [hb]
  exact splitChannels_params o s

/-- Settles O30: the geometry of the invariant bounds the extent, and `StageInv.splitBody` keeps the channels in their memories. -/
theorem splitStaysInThePlane : Obligations.SplitStaysInThePlane := by
  intro s s' hinv hs' hplane
  have hregs : s'.regs = s.regs := by rw [hs']
  have hch : ∀ role, s'.ch role = s.ch role := fun role => by
    rw [hs']
    rfl
  obtain ⟨hstage, -⟩ := (inv_iff s).mp hinv
  refine ⟨Nat.mul_le_mul (Nat.div_le_div_right hinv.geometry.planeW) (Nat.div_le_div_right hinv.geometry.planeH),
    _, _, exec_eq _ _, exec_eq _ _, fun role i => ?_, fun role => ?_, fun role i hi => ?_⟩
  · rw [readCh_complete, readCh_complete]
    exact readCh_splitBody_congr hregs hch hplane role i
  · rw [ch_complete, ← splitBody_params s]
    exact (hstage.splitBody.ch role).below
  · rw [readCh_complete]
    exact readCh_splitBody_beyond s role hi

end Sys2Proof.Proofs
end

section
/-! RECON: its error, how it completes, the pixels of each boundary mode, and the components at gain 1.0 (R195 to R203). -/

namespace Sys2Proof.Proofs

open Sys2Proof.Machine Sys2Proof.Claims Sys2Proof.Laws

/-! ### The error -/

theorem reconBody_not_ready {s : State} (hv : s.regs.chV = false) :
    reconBody s = ({ s with regs := s.regs.invalidateRgb }, some .notReady) :=
  if_pos hv

/-- Settles O31: the body clears RGB_V, and completion sets the flags and the code of NotReady. -/
theorem reconNotReady : Obligations.ReconNotReady := by
  intro s hv
  rw [exec_eq, bodyOf, reconBody_not_ready hv]
  rfl

/-! ### Completion -/

/-- RECON with valid channels writes the preview and completes with no error (R195). -/
theorem exec_recon_of_channels {s : State} (hv : s.regs.chV = true) :
    exec .recon s = .next (complete none (reconPreview s)) := by
  rw [exec_eq, bodyOf, reconBody_ok s hv]

@[simp] theorem readRgb_complete (e : Option Err) (s : State) (i : Nat) : (complete e s).readRgb i = s.readRgb i := rfl

/-- Settles O33: the body writes the preview's extent and the registers named, and completion the flags. -/
theorem reconCompletesAndKeepsTheRest : Obligations.ReconCompletesAndKeepsTheRest := fun s hv =>
  ⟨_, exec_recon_of_channels hv, rfl, readRgb_reconPreview_beyond s⟩

/-! ### The pixels of each boundary mode -/

/-- A pixel of ZERO mode on the last row or column (R199). -/
theorem previewPixel_boundary {s : State} {w h y x : Nat} (hedge : s.regs.edge = .zero) (hb : y + 1 = h ∨ x + 1 = w) :
    s.previewPixel w h y x = { r := 0, g := 0, b := 0 } :=
  if_pos ⟨hedge, by omega⟩

/-- A pixel of the channel grid that is no boundary pixel of ZERO mode (R195). -/
theorem previewPixel_computed {s : State} {w h y x : Nat} (hy : y < h) (hx : x < w)
    (hin : ¬(s.regs.edge = .zero ∧ (y + 1 = h ∨ x + 1 = w))) : s.previewPixel w h y x = s.pixelAt (y * w + x) :=
  if_neg fun ⟨hedge, hb⟩ => hin ⟨hedge, by omega⟩

/-- The three biases in the form in which the statements write them (R196). -/
theorem biasOf_eq (rnd : Bool) : biasOf rnd = (if rnd then 128 else 0, if rnd then 256 else 0, if rnd then 128 else 0) := by
  cases rnd <;> rfl

/-- An RGB element that holds the pixel of channel index i has the components of R197. -/
theorem pixelComputed_of_readRgb {s t : State} {j i : Nat} (hpix : t.readRgb j = s.pixelAt i) : PixelComputed s t j i := by
  unfold PixelComputed
  rw [hpix]
  simp only [State.pixelAt, pixelOf, component_toNat, biasOf_eq, true_and]

/-- Every pixel of the preview but the boundary of ZERO mode is computed from its own channel index, whatever the pitch (R197, R200). -/
theorem pixelComputed_recon {s : State} {y x : Nat}
    (hy : y < (outDims s.regs.edge s.regs.chW.toNat s.regs.chH.toNat).2)
    (hx : x < (outDims s.regs.edge s.regs.chW.toNat s.regs.chH.toNat).1)
    (hin : ¬(s.regs.edge = .zero ∧ (y + 1 = s.regs.chH.toNat ∨ x + 1 = s.regs.chW.toNat))) :
    PixelComputed s (complete none (reconPreview s))
      (y * (outDims s.regs.edge s.regs.chW.toNat s.regs.chH.toNat).1 + x) (y * s.regs.chW.toNat + x) := by
  obtain ⟨hw, hh⟩ := outDims_le s.regs.edge s.regs.chW.toNat s.regs.chH.toNat
  apply pixelComputed_of_readRgb
  rw [readRgb_complete, readRgb_reconPreview s y x hy hx, previewPixel_computed (hy.trans_le hh) (hx.trans_le hw) hin]

/-- Settles O32: each mode fixes the preview's dimensions, and only ZERO mode has boundary pixels. -/
theorem reconBoundaryModes : Obligations.ReconBoundaryModes := by
  intro s hv
  have hW := reconPreview_rgbW s
  have hH := reconPreview_rgbH s
  have hread := readRgb_reconPreview s
  have hcomp := @pixelComputed_recon s
  refine ⟨_, exec_recon_of_channels hv, fun hedge => ?zero, fun hedge => ?crop, fun hedge => ?full⟩
  case zero =>
    rw [hedge] at hW hH hread hcomp
    refine ⟨hW, hH, fun y x hy hx => ?_⟩
    split
    · next hb => exact (hread y x hy hx).trans (previewPixel_boundary hedge hb)
    · next hb => exact hcomp hy hx fun hin => hb hin.2
  case crop =>
    rw [hedge] at hW hH hcomp
    exact ⟨hW, hH, fun y x hy hx => hcomp hy hx (by simp)⟩
  case full =>
    rw [hedge] at hW hH hcomp
    exact ⟨hW, hH, fun y x hy hx => hcomp hy hx (by simp)⟩

/-! ### Gain 1.0 -/

/-- Multiplying by the code of gain 1.0 cancels 12 of the 20 bits shifted out (R203). -/
theorem gainOne_div_20 (a : Nat) : a * 4096 / 2 ^ 20 = a / 256 := by omega

/-- The same of the 21 bits shifted out for green (R203). -/
theorem gainOne_div_21 (a : Nat) : a * 4096 / 2 ^ 21 = a / 512 := by omega

/-- A byte that is a clamped sample divided by 256 is the sample's high byte, since the clamp never acts (R203). -/
theorem eq_highByte {v : Sample} {c : Byte} (h : c.toNat = min 255 (v.toNat / 256)) : c = v.extractLsb' 8 8 := by
  have := v.isLt
  apply BitVec.eq_of_toNat_eq
  rw [h, BitVec.extractLsb'_toNat, Nat.shiftRight_eq_div_pow]
  omega

/-- Settles O34: the components of R197 with the gains cancelled. -/
theorem gainOneTakesHighBytes : Obligations.GainOneTakesHighBytes := by
  intro s hv hR hG hB
  refine ⟨_, exec_recon_of_channels hv, fun y x hy hx hin => ?_⟩
  have hW : (complete none (reconPreview s)).regs.rgbW.toNat = _ := reconPreview_rgbW s
  have hH : (complete none (reconPreview s)).regs.rgbH.toNat = _ := reconPreview_rgbH s
  rw [hW] at hx ⊢
  rw [hH] at hy
  obtain ⟨hr, hg, hb⟩ := pixelComputed_recon hy hx hin
  have hone : (0x1000 : BitVec 16).toNat = 4096 := rfl
  rw [hR, hone, gainOne_div_20] at hr
  rw [hG, hone, gainOne_div_21] at hg
  rw [hB, hone, gainOne_div_20] at hb
  refine ⟨hr, hg, hb, fun hrnd => eq_highByte ?_⟩
  rw [hr, hrnd]
  rfl

end Sys2Proof.Proofs
end

section
/-! The life of a command: what a step runs, acceptance, completion, the illegal command and NOP, and that every run ends idle (R215 to R219,
R274). -/

namespace Sys2Proof.Proofs

open Sys2Proof.Machine Sys2Proof.Claims Sys2Proof.Laws

/-! ### Whose turn it is -/

section Turns

variable {s : State}

theorem takeInput_of_nil (hin : s.inputs = []) : takeInput s = s := by rw [takeInput, hin, List.tail_nil, ← hin]

theorem takeInput_of_cons {x : Input} {rest : List Input} (hin : s.inputs = x :: rest) : takeInput s = { s with inputs := rest } := by
  rw [takeInput, hin, List.tail_cons]

/-- The engine has the turn by the schedule, or because no input is left (log 2). -/
theorem step_of_engine_turn (hturn : s.inputs = [] ∨ ∃ rest, s.inputs = .engine :: rest) : step s = engineStep (takeInput s) := by
  rcases hturn with hin | ⟨rest, hin⟩
  · rw [takeInput_of_nil hin, step, stepBlock, hin]
  · rw [takeInput_of_cons hin, step, stepBlock, hin]

theorem step_of_host_turn {x : Transaction} {rest : List Input} (hin : s.inputs = .host x :: rest) :
    step s = .next (hostStep x { s with inputs := rest }) := by
  rw [step, stepBlock, hin]

/-- On its turn the engine runs the body of the pending word and completes (R216). -/
theorem step_of_engineRuns {c : Word} (hrun : EngineRuns s c) :
    step s = .next (complete (commandBody c (takeInput s)).2 (commandBody c (takeInput s)).1) :=
  (step_of_engine_turn hrun.2).trans (engineStep_pending hrun.1)

/-- A host transaction leaves the schedule and adds its answer to those given before (log 2). -/
theorem hostStep_queues (x : Transaction) (s : State) :
    hostStep x s = { (transact x s).1 with replies := (transact x s).2 :: s.replies, inputs := s.inputs } := by
  obtain ⟨hinputs, hreplies⟩ := transact_inputs_replies x s
  rw [hostStep_eq, hreplies, ← hinputs]

theorem engineStep_idle (hp : s.pending = none) : engineStep s = .next s := by simp [engineStep, hp]

theorem engineStep_of_decodeWord {c : Word} {i : Instr} (hp : s.pending = some c) (hd : decodeWord c = .ok i) :
    engineStep s = exec i s := by
  simp [engineStep, hp, hd]

end Turns

theorem decodeWord_of_decodeTableWord {nbits w : Nat} {i : Instr} (h : decodeTableWord nbits w = some i) :
    decodeWord (BitVec.ofNat 32 (w % 2 ^ nbits)) = .ok i := by
  unfold decodeTableWord at h
  split at h
  · split at h
    next hd => rwa [← Option.some.inj h]
    next => cases h
  · cases h

/-- Settles O4: the engine's turn is `engineStep` at the state with the turn consumed, the host's is `hostStep`. -/
theorem stepRunsPendingCommand : Obligations.StepRunsPendingCommand := by
  refine ⟨fun s c i hp hd => ⟨fun hin => ?_, fun rest hin => ?_⟩, fun s nbits w i htable => ?_,
    fun s hp => ⟨fun hin => ?_, fun rest hin => ?_⟩, fun s x rest hin => ?_, fun _ _ _ => rfl, fun _ _ _ _ => rfl⟩
  · rw [step_of_engine_turn (.inl hin), takeInput_of_nil hin, engineStep_of_decodeWord hp hd]
  · rw [step_of_engine_turn (.inr ⟨rest, hin⟩), takeInput_of_cons hin]
    exact engineStep_of_decodeWord hp hd
  · rw [step_of_engine_turn (.inr ⟨s.inputs, rfl⟩)]
    exact engineStep_of_decodeWord rfl (decodeWord_of_decodeTableWord htable)
  · rw [step_of_engine_turn (.inl hin), takeInput_of_nil hin, engineStep_idle hp]
  · rw [step_of_engine_turn (.inr ⟨rest, hin⟩), takeInput_of_cons hin]
    exact engineStep_idle hp
  · rw [step_of_host_turn hin, hostStep_queues]

/-! ### Acceptance -/

theorem readReg_status_busy (s : State) : (readReg .status s).getLsbD 0 = s.busy := (statusFieldsAndWriteOneToClear s).1

/-- Settles O40: CMD takes a write while idle, which is `accept`, and none while busy. -/
theorem acceptanceOfACommand : Obligations.AcceptanceOfACommand := by
  refine fun s c => ⟨fun hidle => ?_, fun hbusy => busWrite_reg_busy .cmd c s hbusy rfl⟩
  have haccept : busWrite (at_ 0x024) .word c s = (accept c s, .okay) := busWrite_idle .cmd hidle rfl
  rw [haccept, readReg_status_busy]
  exact ⟨rfl, rfl⟩

/-! ### The illegal command and NOP -/

theorem decodeWord_error_of_illegal {c : Word} (hc : c.toNat / 16 ≠ 0 ∨ 5 ≤ c.toNat % 16) : ∃ e, decodeWord c = .error e := by
  by_cases hrsv : fieldRsv c = 0
  · have hzero := (fieldRsv_eq_zero_iff c).mp hrsv
    refine ⟨_, decodeWord_of_fieldOp_gt_four hrsv ?_⟩
    rw [fieldOp_toNat]
    omega
  · exact ⟨_, decodeWord_of_fieldRsv_ne_zero hrsv⟩

/-- A word of RSV ≠ 0 or OP above 4 runs nothing but its completion (R219). -/
theorem commandBody_of_illegal {c : Word} (hc : c.toNat / 16 ≠ 0 ∨ 5 ≤ c.toNat % 16) (s : State) :
    commandBody c s = (s, some .illegalCommand) := by
  obtain ⟨e, he⟩ := decodeWord_error_of_illegal hc
  simp only [commandBody, he]

/-- Settles O5: the word is rejected by the decoder, so the engine's turn is its completion with code 5. -/
theorem illegalCommandCompletesWithCode5 : Obligations.IllegalCommandCompletesWithCode5 := by
  refine fun s c hp hc => ⟨fun hin => ?_, fun rest hin => ?_⟩
  · rw [step_of_engineRuns ⟨hp, .inl hin⟩, commandBody_of_illegal hc, takeInput_of_nil hin]
    rfl
  · rw [step_of_engineRuns ⟨hp, .inr ⟨rest, hin⟩⟩, commandBody_of_illegal hc, takeInput_of_cons hin]
    rfl

/-- Settles O8: the body is empty, and completion sets DONE. -/
theorem nopOnlyReportsCompletion : Obligations.NopOnlyReportsCompletion := fun s =>
  ⟨_, exec_eq .nop s, rfl, fun hie => by simp [State.irq, Regs.irq, Regs.completeFlags, bodyOf, hie]⟩

/-! ### What no command changes -/

/-- The registers g with the fields that a command may write as in g': the status flags, the validity bits, ERRCODE and the latched
dimensions (R14, R27, R28, R44 to R46). -/
def withResultsOf (g g' : Regs) : Regs :=
  { g with
    done := g'.done, err := g'.err, satf := g'.satf, planeV := g'.planeV, chV := g'.chV, rgbV := g'.rgbV, errcode := g'.errcode
    planeW := g'.planeW, planeH := g'.planeH, chW := g'.chW, chH := g'.chH, rgbW := g'.rgbW, rgbH := g'.rgbH }

/-- From s to t only what a command may write has changed: no configuration register, not IN, and none of the model's own fields
(R14, R76). -/
structure WritesResultsOnly (s t : State) : Prop where
  params : t.params = s.params
  inMem : t.inMem = s.inMem
  draws : t.draws = s.draws
  inputs : t.inputs = s.inputs
  replies : t.replies = s.replies
  regs : t.regs = withResultsOf s.regs t.regs

theorem WritesResultsOnly.trans {s t u : State} (h : WritesResultsOnly s t) (h' : WritesResultsOnly t u) : WritesResultsOnly s u where
  params := h'.params.trans h.params
  inMem := h'.inMem.trans h.inMem
  draws := h'.draws.trans h.draws
  inputs := h'.inputs.trans h.inputs
  replies := h'.replies.trans h.replies
  regs := calc
    u.regs = withResultsOf t.regs u.regs := h'.regs
    _ = withResultsOf (withResultsOf s.regs t.regs) u.regs := congrArg (withResultsOf · u.regs) h.regs

theorem writesResultsOnly_refl (s : State) : WritesResultsOnly s s := ⟨rfl, rfl, rfl, rfl, rfl, rfl⟩

theorem writesResultsOnly_decodeBody (s : State) : WritesResultsOnly s (decodeBody s).1 := by
  rcases decodeBody_cases s with ⟨e, -, hb⟩ | ⟨L, -, -, hb⟩ <;> rw [hb] <;> exact ⟨rfl, rfl, rfl, rfl, rfl, rfl⟩

theorem writesResultsOnly_splitChannels (o : BayerOrder) (s : State) : WritesResultsOnly s (splitChannels o s) where
  params := splitChannels_params o s
  inMem := splitChannels_inMem o s
  draws := splitChannels_draws o s
  inputs := splitChannels_inputs o s
  replies := splitChannels_replies o s
  regs := by
    rw [splitChannels_regs]
    rfl

theorem writesResultsOnly_splitBody (s : State) : WritesResultsOnly s (splitBody s).1 := by
  rcases splitBody_cases s with ⟨-, hb⟩ | ⟨-, -, hb⟩ | ⟨o, -, -, hb⟩ <;> rw [hb]
  · exact ⟨rfl, rfl, rfl, rfl, rfl, rfl⟩
  · exact ⟨rfl, rfl, rfl, rfl, rfl, rfl⟩
  · exact writesResultsOnly_splitChannels o s

theorem writesResultsOnly_reconBody (s : State) : WritesResultsOnly s (reconBody s).1 := by
  rcases reconBody_cases s with ⟨-, hb⟩ | ⟨-, hb⟩ <;> rw [hb] <;> exact ⟨rfl, rfl, rfl, rfl, rfl, rfl⟩

theorem writesResultsOnly_pipeBody (s : State) : WritesResultsOnly s (pipeBody s).1 := by
  have hdecode := writesResultsOnly_decodeBody s
  have hsplit := hdecode.trans (writesResultsOnly_splitBody _)
  rcases pipeBody_cases s with ⟨e, -, hb⟩ | ⟨e, -, -, hb⟩ | ⟨-, -, hb⟩ <;> rw [hb]
  · exact hdecode
  · exact hsplit
  · exact hsplit.trans (writesResultsOnly_reconBody _)

theorem writesResultsOnly_commandBody (c : Word) (s : State) : WritesResultsOnly s (commandBody c s).1 := by
  rcases commandBody_cases c s with ⟨e, hb⟩ | ⟨-, hb⟩ | ⟨-, hb⟩ | ⟨-, hb⟩ | ⟨-, hb⟩ <;> rw [hb]
  · exact writesResultsOnly_refl s
  · exact writesResultsOnly_decodeBody s
  · exact writesResultsOnly_splitBody s
  · exact writesResultsOnly_reconBody s
  · exact writesResultsOnly_pipeBody s

theorem writesResultsOnly_complete (e : Option Err) (s : State) : WritesResultsOnly s (complete e s) := ⟨rfl, rfl, rfl, rfl, rfl, rfl⟩

theorem codeOf_eq_zero_iff (e : Option Err) : codeOf e = 0 ↔ e = none := by
  cases e with
  | none => simp
  | some e => exact ⟨fun h => absurd h (codeOf_some_ne e), nofun⟩

/-- Settles O6: whatever body the word runs, completion reports its error, and neither writes more than a command's results. -/
theorem engineStepReportsCompletion : Obligations.EngineStepReportsCompletion := by
  intro s c hrun
  have herr : ∀ e : Option Err, e.isSome = true ↔ codeOf e ≠ 0 := fun e => by
    rw [Option.isSome_iff_ne_none, Ne, Ne, codeOf_eq_zero_iff]
  have hkeep := (writesResultsOnly_commandBody c (takeInput s)).trans (writesResultsOnly_complete (commandBody c (takeInput s)).2 _)
  exact ⟨_, step_of_engineRuns hrun, rfl, rfl, herr _, codeOf_le _, hkeep.inMem, hkeep.params, hkeep.draws, hkeep.replies, hkeep.inputs,
    hkeep.regs⟩

/-! ### Runs -/

theorem inputs_hostEffect {x : Transaction} {s t : State} (ht : HostEffect x s t) : t.inputs = s.inputs := by
  cases ht with
  | softReset d _ _ => exact softReset_inputs s
  | none => rfl
  | accept c => rfl
  | regs g _ => rfl
  | inWord addr d k _ _ _ => rfl

/-- A step consumes its input and no other (log 2). -/
theorem inputs_stepEffect {s t : State} (heff : StepEffect s t) : t.inputs = s.inputs.tail := by
  cases heff with
  | idle => rfl
  | command c _ => exact (writesResultsOnly_commandBody c (takeInput s)).inputs
  | host x rest _ t' ht' reply => exact inputs_hostEffect ht'
  | hardReset rest _ => rfl

/-- The engine's step leaves nothing pending (R216). -/
theorem engineStep_ends_idle (s : State) : ∃ t, engineStep s = .next t ∧ t.pending = none ∧ t.inputs = s.inputs := by
  cases hp : s.pending with
  | none => exact ⟨s, engineStep_idle hp, hp, rfl⟩
  | some c => exact ⟨_, engineStep_pending hp, rfl, (writesResultsOnly_commandBody c s).inputs⟩

theorem run_succ_of_step {s t : State} (h : step s = .next t) (k : Nat) : Host.Core.run core (k + 1) s = Host.Core.run core k t := by
  have hcore : core.step s = .next t := h
  simp only [Host.Core.run, hcore]

/-- Settles O7, by induction on the inputs left: a step consumes one, and with none left the engine has the turn. -/
theorem everyRunEndsIdle : Obligations.EveryRunEndsIdle := by
  intro s
  induction hin : s.inputs generalizing s with
  | nil =>
    obtain ⟨t, ht, hp, hinputs⟩ := engineStep_ends_idle s
    have hstep : step s = .next t := by rw [step_of_engine_turn (.inl hin), takeInput_of_nil hin, ht]
    exact ⟨t, run_succ_of_step hstep 0, hp, hinputs.trans hin⟩
  | cons x rest ih =>
    obtain ⟨t, hstep, heff⟩ := step_effect s
    have hrest : t.inputs = rest := by rw [inputs_stepEffect heff, hin, List.tail_cons]
    rw [List.length_cons, run_succ_of_step hstep]
    exact ih t hrest

end Sys2Proof.Proofs
end

section
/-! PIPE: its stages in their order, its three outcomes, and what a successful one keeps (R218). -/

namespace Sys2Proof.Proofs

open Sys2Proof.Machine Sys2Proof.Claims Sys2Proof.Laws

/-! ### A completion between two stages -/

/-- SPLIT reads nothing that a completion writes, and its own completion writes that again. -/
theorem exec_split_complete (e : Option Err) (s : State) : exec .split (complete e s) = exec .split s := by
  have hv : (complete e s).regs.planeV = s.regs.planeV := rfl
  have hbayer : (complete e s).regs.bayer = s.regs.bayer := rfl
  rcases splitBody_cases s with ⟨hp, hb⟩ | ⟨hp, ho, hb⟩ | ⟨o, hp, ho, hb⟩
  · rw [split_fails_of_splitBody hb, split_fails_of_splitBody (splitBody_not_ready (hv.trans hp))]
    rfl
  · rw [split_fails_of_splitBody hb, split_fails_of_splitBody (splitBody_bad_order (hv.trans hp) (hbayer ▸ ho))]
    rfl
  · rw [exec_split_of_order hp ho, exec_split_of_order (hv.trans hp) (hbayer ▸ ho)]
    cases o <;> rfl

/-- Nor does RECON read what a completion writes. -/
theorem exec_recon_complete (e : Option Err) (s : State) : exec .recon (complete e s) = exec .recon s := by
  have hv : (complete e s).regs.chV = s.regs.chV := rfl
  rcases reconBody_cases s with ⟨hc, hb⟩ | ⟨hc, hb⟩
  · rw [exec_eq, exec_eq, bodyOf, bodyOf, hb, reconBody_not_ready (hv.trans hc)]
    rfl
  · rw [exec_recon_of_channels hc, exec_recon_of_channels (hv.trans hc)]
    rfl

/-! ### The codes of the stages -/

/-- The checks of DECODE find the errors of codes 1, 2 and 4 only (R137). -/
theorem codeOf_of_descCheck {p : Params} {g : Regs} {e : Err} (h : descCheck p g = some e) : codeOf (some e) ∈ [1, 2, 4] := by
  unfold descCheck at h
  repeat' split at h
  all_goals cases h
  all_goals decide

theorem codeOf_of_decodeBody {s : State} {e : Err} (h : (decodeBody s).2 = some e) : codeOf (some e) ∈ [1, 2, 4] := by
  rcases decodeBody_cases s with ⟨e', hcheck, hb⟩ | ⟨L, -, -, hb⟩ <;> rw [hb] at h
  · exact h ▸ codeOf_of_descCheck hcheck
  · cases h

theorem planeV_of_decodeBody_ok {s : State} (h : (decodeBody s).2 = none) : (decodeBody s).1.regs.planeV = true := by
  rcases decodeBody_cases s with ⟨e, -, hb⟩ | ⟨L, -, -, hb⟩ <;> rw [hb] at h ⊢
  · cases h
  · rfl

/-- SPLIT of a valid plane can find only the order bad (R180). -/
theorem codeOf_of_splitBody {s : State} {e : Err} (hv : s.regs.planeV = true) (h : (splitBody s).2 = some e) : codeOf (some e) = 3 := by
  obtain ⟨-, -, -, hcode⟩ := splitBody_validity s
  have hmem := hcode hv
  rw [h] at hmem
  exact List.mem_singleton.mp ((List.mem_cons.mp hmem).resolve_left (codeOf_some_ne e))

/-! ### The stages in order -/

section Stages

variable {s : State} {e : Err}

theorem exec_pipe_of_decode_error (hd : (decodeBody s).2 = some e) : exec .pipe s = exec .decode s := by
  simp only [exec_eq, bodyOf, pipeBody, thenStage, hd]

theorem exec_pipe_of_split_error (hd : (decodeBody s).2 = none) (hs : (splitBody (decodeBody s).1).2 = some e) :
    exec .pipe s = exec .split (decodeBody s).1 := by
  simp only [exec_eq, bodyOf, pipeBody, thenStage, hd, hs]

theorem exec_pipe_of_split_ok (hd : (decodeBody s).2 = none) (hs : (splitBody (decodeBody s).1).2 = none) :
    exec .pipe s = exec .recon (splitBody (decodeBody s).1).1 := by
  simp only [exec_eq, bodyOf, pipeBody, thenStage, hd, hs]

end Stages

/-- Settles O35: PIPE is the stage that it ends with, run on what the stages before it left, and a completion in between leaves no trace. -/
theorem pipeIsItsStagesInOrder : Obligations.PipeIsItsStagesInOrder := by
  intro s
  cases hd : (decodeBody s).2 with
  | some e =>
    have hcode : (complete (decodeBody s).2 (decodeBody s).1).regs.errcode = codeOf (some e) := congrArg codeOf hd
    exact ⟨_, exec_eq .decode s, fun _ => ⟨(exec_pipe_of_decode_error hd).trans (exec_eq ..), hcode ▸ codeOf_of_decodeBody hd⟩,
      fun hok => absurd (hcode.symm.trans hok) (codeOf_some_ne e)⟩
  | none =>
    have hvalid := planeV_of_decodeBody_ok hd
    refine ⟨_, exec_eq .decode s, absurd (congrArg codeOf hd), fun _ => ⟨_, (exec_split_complete _ _).trans (exec_eq ..), ?_⟩⟩
    cases hs : (splitBody (decodeBody s).1).2 with
    | some e =>
      have hcode : (complete (splitBody (decodeBody s).1).2 (splitBody (decodeBody s).1).1).regs.errcode = codeOf (some e) :=
        congrArg codeOf hs
      exact ⟨fun _ => ⟨(exec_pipe_of_split_error hd hs).trans (exec_eq ..), hcode.trans (codeOf_of_splitBody hvalid hs)⟩,
        fun hok => absurd (hcode.symm.trans hok) (codeOf_some_ne e)⟩
    | none =>
      obtain ⟨-, hch, -, -⟩ := splitBody_validity (decodeBody s).1
      obtain ⟨-, -, -, hrecon⟩ := reconBody_validity (splitBody (decodeBody s).1).1
      exact ⟨absurd (congrArg codeOf hs), fun _ => ⟨_, (exec_recon_complete _ _).trans (exec_eq ..),
        (exec_pipe_of_split_ok hd hs).trans (exec_eq ..), congrArg codeOf (hrecon (hch.mpr hs))⟩⟩

/-! ### The three outcomes -/

section Outcomes

variable {s : State} {L : Layout}

theorem decodeBody_of_ready (h : DecodeReady L s) : decodeBody s = (decodePlane L s, none) :=
  decodeBody_ok s L (descCheck_of_ready h) h.layout

/-- A descriptor that passes its checks is one of `DecodeReady` (R135 to R137). -/
theorem ready_of_descCheck (hcheck : descCheck s.params s.regs = none) : ∃ L, DecodeReady L s := by
  obtain ⟨L, hL⟩ := layout_of_descCheck _ _ hcheck
  obtain ⟨hdim, henc, hlen⟩ := (descCheck_eq_none _ _).mp hcheck
  simp only [Regs.InvalidDim, Regs.UnsupEnc, not_or, not_lt] at hdim henc
  obtain ⟨hw, hh, hw', hh'⟩ := hdim
  exact ⟨L, hL, Nat.one_le_iff_ne_zero.mpr hw, hw', Nat.one_le_iff_ne_zero.mpr hh, hh', henc.1, hlen⟩

/-- A PIPE whose stages all succeed completes with what RECON leaves of the split of the decoded plane (R218). -/
theorem exec_pipe_of_ready {o : BayerOrder} (h : DecodeReady L s) (ho : bayerOrderOf s.regs.bayer = some o) :
    exec .pipe s = .next (complete none (reconPreview (splitChannels o (decodePlane L s)))) := by
  have hd := decodeBody_of_ready h
  have hs : splitBody (decodePlane L s) = (splitChannels o (decodePlane L s), none) := splitBody_ok _ o rfl ho
  have hv : (splitChannels o (decodePlane L s)).regs.chV = true := by rw [splitChannels_regs]
  rw [exec_pipe_of_split_ok (by rw [hd]) (by rw [hd, hs]), hd, hs, exec_recon_of_channels hv]

/-- A PIPE that finds the order bad completes with code 3 and the decoded plane (R218). -/
theorem exec_pipe_of_bad_order (h : DecodeReady L s) (ho : bayerOrderOf s.regs.bayer = none) :
    exec .pipe s = .next (complete (some .unsupportedBayerOrder)
      { decodePlane L s with regs := (decodePlane L s).regs.invalidateFromCh }) := by
  have hd := decodeBody_of_ready h
  have hs := splitBody_bad_order (s := decodePlane L s) rfl ho
  rw [exec_pipe_of_split_error (by rw [hd]) (by rw [hd, hs]), hd, exec_eq, bodyOf, hs]

/-- A PIPE that fails a check of DECODE completes with its code and no valid result (R218). -/
theorem exec_pipe_of_descCheck {e : Err} (hcheck : descCheck s.params s.regs = some e) :
    exec .pipe s = .next (complete (some e) { s with regs := s.regs.invalidateAll }) := by
  have hd := decodeBody_error hcheck
  rw [exec_pipe_of_decode_error (by rw [hd]), exec_eq, bodyOf, hd]

end Outcomes

/-- Settles O36: the checks and the order fix which of the three states PIPE completes with. -/
theorem pipeOutcomes : Obligations.PipeOutcomes := by
  refine fun s => ⟨fun L h hbayer => ?succeeds, fun L h hbayer => ?badOrder, fun hnot => ?badDescriptor⟩
  case succeeds =>
    obtain ⟨o, ho⟩ := bayerOrderOf_some s.regs.bayer hbayer
    have hregs := splitChannels_regs o (decodePlane L s)
    refine ⟨_, exec_pipe_of_ready h ho, rfl, rfl, rfl, rfl, ?_, ?_, rfl, ?_, ?_,
      splitChannels_chW o (decodePlane L s), splitChannels_chH o (decodePlane L s)⟩
    all_goals
      rw [complete_regs, reconPreview_regs, hregs]
      rfl
  case badOrder =>
    exact ⟨_, exec_pipe_of_bad_order h (bayerOrderOf_none _ hbayer), rfl, rfl, rfl, rfl, rfl, rfl, rfl, fun _ => ch_complete _ _ _⟩
  case badDescriptor =>
    obtain ⟨e, he⟩ := Option.ne_none_iff_exists'.mp fun hcheck => (ready_of_descCheck hcheck).elim hnot
    exact ⟨_, exec_pipe_of_descCheck he, codeOf_of_descCheck he, rfl, rfl, rfl⟩

/-! ### What a successful PIPE keeps -/

/-- Settles O37: the frame of the completed state, and of each output memory the elements beyond its stage's extent, which the later stages
do not write at all. -/
theorem pipeCompletesAndKeepsTheRest : Obligations.PipeCompletesAndKeepsTheRest := by
  intro s L h hbayer
  obtain ⟨o, ho⟩ := bayerOrderOf_some s.regs.bayer hbayer
  refine ⟨_, exec_pipe_of_ready h ho, ?frame, fun i hi => ?plane, fun role i hi => ?channels, fun i hi => ?rgb⟩
  case frame => cases o <;> rfl
  case plane =>
    have hlater : (complete none (reconPreview (splitChannels o (decodePlane L s)))).plane = (decodePlane L s).plane :=
      splitChannels_plane o _
    rw [State.readPlane, hlater]
    exact readPlane_decodePlane_beyond L s i hi
  case channels =>
    rw [readCh_complete]
    exact readCh_splitChannels_beyond o (decodePlane L s) role i hi
  case rgb =>
    have hbefore : (splitChannels o (decodePlane L s)).rgb = s.rgb := splitChannels_rgb o _
    rw [readRgb_complete, readRgb_reconPreview_beyond _ i hi, State.readRgb, hbefore, State.readRgb]

end Sys2Proof.Proofs
end

section
/-! The bus as an exception: what a refused transaction leaves (R239), and the writes that lower irq (R241). -/

namespace Sys2Proof.Proofs

open Sys2Proof.Machine Sys2Proof.Claims Sys2Proof.Laws

/-- A bus read is refused with read data 0, or it returns what its target holds (R70). -/
theorem busRead_cases (addr : Word) (size : AccessSize) (s : State) :
    busRead addr size s = .read .slverr 0 ∨
    ∃ t, target s.params addr size = some t ∧ busRead addr size s = .read .okay (readTarget t s) := by
  cases ht : target s.params addr size with
  | none => exact .inl (busRead_unmapped ht)
  | some t =>
    simp only [busRead, ht]
    split
    · exact .inl rfl
    · exact .inr ⟨t, rfl, rfl⟩

/-- Settles O41: a write answers SLVERR only where it returns its state unchanged, and a read has no state to return but its own. -/
theorem refusedTransactionChangesNothing : Obligations.RefusedTransactionChangesNothing := by
  refine fun s => ⟨fun addr size d hresp => ?write, fun _ _ => rfl, fun addr size v hread => ?readData⟩
  case write =>
    show (busWrite addr size d s).1 = s
    rcases busWrite_cases addr size d s with hrefused | ⟨t, s', -, -, -, haccepted⟩
    · rw [hrefused]
    · rw [haccepted] at hresp
      cases hresp
  case readData =>
    rcases busRead_cases addr size s with hrefused | ⟨t, -, haccepted⟩
    · exact (Reply.read.inj (hread.symm.trans hrefused)).2
    · cases haccepted.symm.trans hread

/-- Settles O48: each of the three writes is accepted, and irq is a function of the DONE, ERR and enable bits that it leaves. -/
theorem irqFallsWhenAcknowledged : Obligations.IrqFallsWhenAcknowledged := by
  intro s d
  have hstatus : busWrite (at_ 0x028) .word d s = ({ s with regs := s.regs.clearStatus d }, .okay) :=
    busWrite_reg .status d s _ (.inr rfl) rfl
  have hcmd (hidle : s.busy = false) : busWrite (at_ 0x024) .word d s = (accept d s, .okay) := busWrite_idle .cmd hidle rfl
  have hirqEn : busWrite (at_ 0x030) .word d s =
      ({ s with regs := { s.regs with doneIe := d.getLsbD 0, errIe := d.getLsbD 1 } }, .okay) :=
    busWrite_reg .irqEn d s _ (.inr rfl) rfl
  refine ⟨?status, fun hidle => ?cmd, ?irqEn⟩
  case status =>
    rw [hstatus]
    rfl
  case cmd =>
    rw [hcmd hidle]
    rfl
  case irqEn =>
    rw [hirqEn]
    exact ⟨rfl, rfl, rfl⟩

end Sys2Proof.Proofs
end

section
/-! The errors of commands (R236, R238): a failing stage writes no output, and a command run again on the state it left gives that state
again. The second rests on one fact per stage: where a stage finds its own output already standing, it changes no more than the validity
bits. -/

namespace Sys2Proof.Proofs

open Sys2Proof.Machine Sys2Proof.Claims Sys2Proof.Laws

/-- A state with its three validity bits set as given (R48). -/
def withValidity (s : State) (planeV chV rgbV : Bool) : State :=
  { s with regs := { s.regs with planeV := planeV, chV := chV, rgbV := rgbV } }

/-! ### A failing stage -/

/-- The body of a command of one stage succeeds, or it changes only validity bits (R48, R236). -/
theorem bodyOf_stage_cases {i : Instr} (hi : i ≠ .pipe) (s : State) :
    (bodyOf i s).2 = none ∨ ∃ e planeV chV rgbV, bodyOf i s = (withValidity s planeV chV rgbV, some e) := by
  cases i with
  | nop => exact .inl rfl
  | decode =>
    rcases decodeBody_cases s with ⟨e, -, hb⟩ | ⟨L, -, -, hb⟩
    · exact .inr ⟨e, false, false, false, hb⟩
    · exact .inl (congrArg Prod.snd hb)
  | split =>
    rcases splitBody_cases s with ⟨-, hb⟩ | ⟨-, -, hb⟩ | ⟨o, -, -, hb⟩
    · exact .inr ⟨_, s.regs.planeV, false, false, hb⟩
    · exact .inr ⟨_, s.regs.planeV, false, false, hb⟩
    · exact .inl (congrArg Prod.snd hb)
  | recon =>
    rcases reconBody_cases s with ⟨-, hb⟩ | ⟨-, hb⟩
    · exact .inr ⟨_, s.regs.planeV, s.regs.chV, false, hb⟩
    · exact .inl (congrArg Prod.snd hb)
  | pipe => exact absurd rfl hi

/-- Settles O39: a code other than 0 is a failed body's, and neither that body nor its completion writes an output. -/
theorem failedStageWritesNoOutput : Obligations.FailedStageWritesNoOutput := by
  intro i s hi
  refine ⟨_, exec_eq i s, fun hcode => ?_⟩
  rcases bodyOf_stage_cases hi s with hok | ⟨e, planeV, chV, rgbV, hb⟩
  · exact absurd ((codeOf_eq_zero_iff _).mpr hok) hcode
  · rw [hb]
    exact ⟨rfl, fun _ => ch_complete _ _ _, rfl, rfl, rfl, rfl, rfl, rfl, rfl, rfl, rfl, rfl⟩

/-! ### A stage whose output already stands -/

/-- The samples of a DECODE depend on IN and the configuration, which no command writes (R150, R158). -/
theorem planeSample_of_writesResultsOnly {s t : State} (h : WritesResultsOnly s t) (L : Layout) : t.planeSample L = s.planeSample L := by
  have hin : t.readIn = s.readIn := funext fun a => by rw [State.readIn, h.inMem, State.readIn]
  funext i
  rw [State.planeSample, State.rawSample, hin, h.regs]
  rfl

theorem decodePlane_satf (L : Layout) (s : State) : (decodePlane L s).regs.satf =
    (List.range (s.regs.width.toNat * s.regs.height.toNat)).any (fun i => (s.planeSample L i).2) := rfl

/-- A DECODE in layout L would write the plane, the dimensions and the SATF that stand (R150). -/
structure PlaneStands (L : Layout) (s : State) : Prop where
  plane : (decodePlane L s).plane = s.plane
  width : (decodePlane L s).regs.planeW = s.regs.planeW
  height : (decodePlane L s).regs.planeH = s.regs.planeH
  satf : (decodePlane L s).regs.satf = s.regs.satf

/-- A SPLIT in the order o would write the channels and the dimensions that stand (R180). -/
structure ChannelsStand (o : BayerOrder) (s : State) : Prop where
  channels : ∀ role, (splitChannels o s).ch role = s.ch role
  width : (splitChannels o s).regs.chW = s.regs.chW
  height : (splitChannels o s).regs.chH = s.regs.chH

/-- A RECON would write the preview and the dimensions that stand (R195). -/
structure PreviewStands (s : State) : Prop where
  rgb : (reconPreview s).rgb = s.rgb
  width : (reconPreview s).regs.rgbW = s.regs.rgbW
  height : (reconPreview s).regs.rgbH = s.regs.rgbH

section Standing

variable {L : Layout} {o : BayerOrder} {s : State}

theorem decodePlane_of_stands (h : PlaneStands L s) : decodePlane L s = withValidity s true false false := by
  obtain ⟨hplane, hwidth, hheight, hsatf⟩ := h
  calc decodePlane L s
    _ = { s with
          plane := (decodePlane L s).plane
          regs := { s.regs with
            planeW := (decodePlane L s).regs.planeW, planeH := (decodePlane L s).regs.planeH, satf := (decodePlane L s).regs.satf
            planeV := true, chV := false, rgbV := false } } := rfl
    _ = withValidity s true false false := by
      rw [hplane, hwidth, hheight, hsatf]
      rfl

theorem splitChannels_of_stands (h : ChannelsStand o s) : splitChannels o s = withValidity s s.regs.planeV true false := by
  obtain ⟨hch, hwidth, hheight⟩ := h
  calc splitChannels o s
    _ = { s with
          chR := (splitChannels o s).ch .r, chGr := (splitChannels o s).ch .gr, chGb := (splitChannels o s).ch .gb
          chB := (splitChannels o s).ch .b
          regs := { s.regs with
            chW := (splitChannels o s).regs.chW, chH := (splitChannels o s).regs.chH, chV := true, rgbV := false } } := by
      cases o <;> rfl
    _ = withValidity s s.regs.planeV true false := by
      rw [hch, hch, hch, hch, hwidth, hheight]
      rfl

theorem reconPreview_of_stands (h : PreviewStands s) : reconPreview s = withValidity s s.regs.planeV s.regs.chV true := by
  obtain ⟨hrgb, hwidth, hheight⟩ := h
  calc reconPreview s
    _ = { s with
          rgb := (reconPreview s).rgb
          regs := { s.regs with rgbW := (reconPreview s).regs.rgbW, rgbH := (reconPreview s).regs.rgbH, rgbV := true } } := rfl
    _ = withValidity s s.regs.planeV s.regs.chV true := by
      rw [hrgb, hwidth, hheight]
      rfl

/-! What a stage wrote stands: it reads nothing of its own output. -/

theorem planeStands_decodePlane (L : Layout) (s : State) : PlaneStands L (decodePlane L s) :=
  ⟨overwrite_overwrite .., rfl, rfl, rfl⟩

theorem channelsStand_splitChannels (o : BayerOrder) (s : State) : ChannelsStand o (splitChannels o s) := by
  have hregs := splitChannels_regs o (splitChannels o s)
  rw [splitChannels_regs o s] at hregs
  refine ⟨fun role => ?_, ?_, ?_⟩
  · obtain ⟨a, b, rfl⟩ := roleOf_surjective o role
    rw [ch_splitChannels, ch_splitChannels, splitChannels_regs]
    simp only [State.readPlane, splitChannels_plane]
    exact overwrite_overwrite ..
  · rw [hregs, splitChannels_regs]
  · rw [hregs, splitChannels_regs]

theorem previewStands_reconPreview (s : State) : PreviewStands (reconPreview s) :=
  ⟨overwrite_overwrite .., rfl, rfl⟩

/-! It still stands after the later stages, which write other outputs, and after any change of the validity bits. -/

theorem PlaneStands.splitChannels (h : PlaneStands L s) (o : BayerOrder) : PlaneStands L (splitChannels o s) := by
  obtain ⟨hplane, hwidth, hheight, hsatf⟩ := h
  have hregs := splitChannels_regs o s
  have hsample := planeSample_of_writesResultsOnly (writesResultsOnly_splitChannels o s) L
  refine ⟨?plane, ?width, ?height, ?satf⟩
  case plane =>
    rw [decodePlane_plane, hsample, hregs, splitChannels_plane]
    exact hplane
  case width =>
    rw [decodePlane_regs, hregs]
    exact hwidth
  case height =>
    rw [decodePlane_regs, hregs]
    exact hheight
  case satf =>
    rw [decodePlane_satf, hsample, hregs]
    exact hsatf

theorem PlaneStands.reconPreview (h : PlaneStands L s) : PlaneStands L (reconPreview s) :=
  ⟨h.plane, h.width, h.height, h.satf⟩

theorem ChannelsStand.reconPreview (h : ChannelsStand o s) : ChannelsStand o (reconPreview s) := by
  obtain ⟨hch, hwidth, hheight⟩ := h
  cases o <;> exact ⟨hch, hwidth, hheight⟩

theorem ChannelsStand.withValidity (h : ChannelsStand o s) (planeV chV rgbV : Bool) : ChannelsStand o (withValidity s planeV chV rgbV) := by
  obtain ⟨hch, hwidth, hheight⟩ := h
  cases o <;> exact ⟨hch, hwidth, hheight⟩

theorem PreviewStands.withValidity (h : PreviewStands s) (planeV chV rgbV : Bool) : PreviewStands (withValidity s planeV chV rgbV) :=
  ⟨h.rgb, h.width, h.height⟩

end Standing

/-! ### The stages of a command, run again -/

theorem decodePlane_decodePlane (L : Layout) (s : State) : decodePlane L (decodePlane L s) = decodePlane L s :=
  decodePlane_of_stands (planeStands_decodePlane L s)

theorem splitChannels_splitChannels (o : BayerOrder) (s : State) : splitChannels o (splitChannels o s) = splitChannels o s := by
  rw [splitChannels_of_stands (channelsStand_splitChannels o s)]
  cases o <;> rfl

theorem reconPreview_reconPreview (s : State) : reconPreview (reconPreview s) = reconPreview s :=
  reconPreview_of_stands (previewStands_reconPreview s)

/-- The three stages of PIPE, on what they left: each finds its output standing, and the three validity bits rise one by one (R218). -/
theorem stages_stages (L : Layout) (o : BayerOrder) (s : State) :
    reconPreview (splitChannels o (decodePlane L (reconPreview (splitChannels o (decodePlane L s))))) =
      reconPreview (splitChannels o (decodePlane L s)) := by
  have hplane := ((planeStands_decodePlane L s).splitChannels o).reconPreview
  have hch := (channelsStand_splitChannels o (decodePlane L s)).reconPreview.withValidity true false false
  have hrgb := (previewStands_reconPreview (splitChannels o (decodePlane L s))).withValidity true true false
  rw [decodePlane_of_stands hplane, splitChannels_of_stands hch]
  refine (reconPreview_of_stands hrgb).trans ?_
  cases o <;> rfl

/-! ### A completion before a command -/

theorem writesResultsOnly_decodePlane (L : Layout) (s : State) : WritesResultsOnly s (decodePlane L s) := ⟨rfl, rfl, rfl, rfl, rfl, rfl⟩

theorem writesResultsOnly_reconPreview (s : State) : WritesResultsOnly s (reconPreview s) := ⟨rfl, rfl, rfl, rfl, rfl, rfl⟩

/-- The checks of DECODE read the configuration only, which no command writes (R137). -/
theorem descCheck_of_writesResultsOnly {s t : State} (hkeep : WritesResultsOnly s t) :
    descCheck t.params t.regs = descCheck s.params s.regs := by
  rw [hkeep.params, hkeep.regs]
  rfl

theorem layout_of_writesResultsOnly {s t : State} (hkeep : WritesResultsOnly s t) : t.regs.layout = s.regs.layout := by
  rw [hkeep.regs]
  rfl

theorem bayer_of_writesResultsOnly {s t : State} (hkeep : WritesResultsOnly s t) : t.regs.bayer = s.regs.bayer := by
  rw [hkeep.regs]
  rfl

theorem ready_of_writesResultsOnly {L : Layout} {s t : State} (hkeep : WritesResultsOnly s t) (h : DecodeReady L s) : DecodeReady L t := by
  obtain ⟨L', h'⟩ := ready_of_descCheck ((descCheck_of_writesResultsOnly hkeep).trans (descCheck_of_ready h))
  obtain rfl : L' = L := Option.some.inj (h'.layout.symm.trans ((layout_of_writesResultsOnly hkeep).trans h.layout))
  exact h'

/-- DECODE reads nothing that a completion writes, and its own completion writes that again. -/
theorem exec_decode_complete (e : Option Err) (s : State) : exec .decode (complete e s) = exec .decode s := by
  rcases decodeBody_cases s with ⟨e', hcheck, -⟩ | ⟨L, hcheck, hlay, -⟩
  · rw [(decode_fails_of_descCheck hcheck).2, And.right (decode_fails_of_descCheck (s := complete e s) hcheck)]
    rfl
  · rw [exec_decode_of_checks hcheck hlay, exec_decode_of_checks (s := complete e s) hcheck hlay]
    rfl

/-- Nor does PIPE, which completes once (R218). -/
theorem exec_pipe_complete (e : Option Err) (s : State) : exec .pipe (complete e s) = exec .pipe s := by
  have hkeep := writesResultsOnly_complete e s
  cases hcheck : descCheck s.params s.regs with
  | some e' =>
    rw [exec_pipe_of_descCheck hcheck, exec_pipe_of_descCheck (s := complete e s) hcheck]
    rfl
  | none =>
    obtain ⟨L, hready⟩ := ready_of_descCheck hcheck
    have hready' := ready_of_writesResultsOnly hkeep hready
    cases ho : bayerOrderOf s.regs.bayer with
    | none =>
      rw [exec_pipe_of_bad_order hready ho, exec_pipe_of_bad_order hready' ho]
      rfl
    | some o =>
      rw [exec_pipe_of_ready hready ho, exec_pipe_of_ready hready' ho]
      cases o <;> rfl

/-- No command reads what a completion writes, and each completes in its turn (R216). -/
theorem exec_complete (i : Instr) (e : Option Err) (s : State) : exec i (complete e s) = exec i s := by
  cases i with
  | nop => rfl
  | decode => exact exec_decode_complete e s
  | split => exact exec_split_complete e s
  | recon => exact exec_recon_complete e s
  | pipe => exact exec_pipe_complete e s

/-! ### Repeated commands -/

/-- The command i, run on s, answers a state that it answers again when it is run on that state. -/
def Repeats (i : Instr) (s : State) : Prop := ∃ t, exec i s = .next t ∧ exec i t = .next t

/-- A command repeats if on what its body left it completes with the same. -/
theorem repeats_of_body {i : Instr} {s t : State} {e : Option Err} (h : exec i s = .next (complete e t))
    (hagain : exec i t = .next (complete e t)) : Repeats i s :=
  ⟨_, h, (exec_complete i e t).trans hagain⟩

theorem repeats_decode (s : State) : Repeats .decode s := by
  rcases decodeBody_cases s with ⟨e, hcheck, -⟩ | ⟨L, hcheck, hlay, -⟩
  · exact ⟨_, (decode_fails_of_descCheck hcheck).2, And.right (decode_fails_of_descCheck hcheck)⟩
  · refine repeats_of_body (exec_decode_of_checks hcheck hlay) ?_
    rw [exec_decode_of_checks (s := decodePlane L s) hcheck hlay, decodePlane_decodePlane]

theorem repeats_split (s : State) : Repeats .split s := by
  rcases splitBody_cases s with ⟨hv, hb⟩ | ⟨hv, ho, hb⟩ | ⟨o, hv, ho, -⟩
  · exact ⟨_, split_fails_of_splitBody hb, split_fails_of_splitBody (splitBody_not_ready hv)⟩
  · exact ⟨_, split_fails_of_splitBody hb, split_fails_of_splitBody (splitBody_bad_order hv ho)⟩
  · have hregs := splitChannels_regs o s
    refine repeats_of_body (exec_split_of_order hv ho) ?_
    rw [exec_split_of_order (by rw [hregs]; exact hv) (by rw [hregs]; exact ho), splitChannels_splitChannels]

theorem repeats_recon (s : State) : Repeats .recon s := by
  rcases reconBody_cases s with ⟨hv, -⟩ | ⟨hv, -⟩
  · exact ⟨_, reconNotReady s hv, reconNotReady _ hv⟩
  · refine repeats_of_body (exec_recon_of_channels hv) ?_
    rw [exec_recon_of_channels (s := reconPreview s) hv, reconPreview_reconPreview]

theorem repeats_pipe (s : State) : Repeats .pipe s := by
  cases hcheck : descCheck s.params s.regs with
  | some e => exact ⟨_, exec_pipe_of_descCheck hcheck, exec_pipe_of_descCheck hcheck⟩
  | none =>
    obtain ⟨L, hready⟩ := ready_of_descCheck hcheck
    have hdecode := writesResultsOnly_decodePlane L s
    cases ho : bayerOrderOf s.regs.bayer with
    | none =>
      refine repeats_of_body (t := decodePlane L s) (exec_pipe_of_bad_order hready ho) ?_
      rw [exec_pipe_of_bad_order (ready_of_writesResultsOnly hdecode hready) ho, decodePlane_decodePlane]
      rfl
    | some o =>
      have hkeep := (hdecode.trans (writesResultsOnly_splitChannels o _)).trans (writesResultsOnly_reconPreview _)
      refine repeats_of_body (exec_pipe_of_ready hready ho) ?_
      rw [exec_pipe_of_ready (ready_of_writesResultsOnly hkeep hready) ((bayer_of_writesResultsOnly hkeep).symm ▸ ho), stages_stages]

/-- Settles O38: each command repeats, and it has one answer. -/
theorem commandsAreRepeatable : Obligations.CommandsAreRepeatable := by
  intro i s t ht
  have hrepeats : Repeats i s := by
    cases i with
    | nop => exact ⟨_, rfl, rfl⟩
    | decode => exact repeats_decode s
    | split => exact repeats_split s
    | recon => exact repeats_recon s
    | pipe => exact repeats_pipe s
  obtain ⟨u, hu, hagain⟩ := hrepeats
  obtain rfl := Host.Outcome.next.inj (ht.symm.trans hu)
  exact hagain

end Sys2Proof.Proofs
end

section
/-! The two resets (R265, R266): which registers and memories each leaves, and what the host reads of a memory that was drawn anew. -/

namespace Sys2Proof.Proofs

open Sys2Proof.Machine Sys2Proof.Claims Sys2Proof.Laws

/-! ### Output memories drawn anew -/

theorem readPlane_drawOutputs (s : State) (i : Nat) : s.drawOutputs.readPlane i = Config.freeSample .plane s.draws i :=
  read_fresh s.draws _ i

theorem ch_drawOutputs (s : State) (role : Role) : s.drawOutputs.ch role = Memory.fresh s.draws := by
  cases role <;> rfl

theorem readCh_drawOutputs (s : State) (role : Role) (i : Nat) :
    s.drawOutputs.readCh role i = Config.freeSample (.ch role) s.draws i := by
  rw [State.readCh, ch_drawOutputs, read_fresh]

theorem readRgb_drawOutputs (s : State) (i : Nat) : s.drawOutputs.readRgb i = Config.freePixel s.draws i :=
  read_fresh s.draws _ i

/-! ### The soft reset -/

/-- CTRL takes a write whether the block is idle or busy, and bit 0 of it is a soft reset (R26, R80). -/
theorem busWrite_ctrl (d : Word) (s : State) :
    busWrite (at_ 0x020) .word d s = (if d.getLsbD 0 then softReset s else s, .okay) :=
  busWrite_reg .ctrl d s _ (.inr rfl) rfl

/-- Settles O53: a CTRL write is a soft reset or nothing, and the soft reset draws the outputs only where a command is pending. -/
theorem softResetKeepsIn : Obligations.SoftResetKeepsIn := by
  refine fun s d => ⟨fun hbit => ?noReset, fun hbit hidle => ?idle, fun hbit hbusy => ?busy⟩
  case noReset => rw [busWrite_ctrl, if_neg (Bool.eq_false_iff.mp hbit)]
  case idle =>
    have hp : s.pending = none := Option.isNone_iff_eq_none.mp (Option.isSome_eq_false_iff.mp hidle)
    rw [busWrite_ctrl, if_pos hbit, softReset_of_idle hp]
    rfl
  case busy =>
    obtain ⟨c, hp⟩ := Option.isSome_iff_exists.mp hbusy
    rw [busWrite_ctrl, if_pos hbit, softReset_of_pending hp]
    exact ⟨_, rfl, rfl, rfl, rfl, rfl, readPlane_drawOutputs s.resetRegs, readCh_drawOutputs s.resetRegs,
      readRgb_drawOutputs s.resetRegs⟩

/-! ### The hardware reset -/

theorem step_of_hardReset {s : State} {rest : List Input} (hin : s.inputs = .hardReset :: rest) :
    step s = .next (hardReset { s with inputs := rest }) := by
  rw [step, stepBlock, hin]

theorem readIn_hardReset (s : State) (a : Nat) : (hardReset s).readIn a = Config.freeByte s.draws a :=
  read_fresh s.draws _ a

/-- Settles O54: the step is `hardReset`, whose output memories are those of `drawOutputs` and whose IN is of the same draw. -/
theorem hardwareResetForgetsAll : Obligations.HardwareResetForgetsAll := fun s _ hin =>
  ⟨_, step_of_hardReset hin, rfl, rfl, rfl, rfl, rfl, readIn_hardReset _, readPlane_drawOutputs s.resetRegs,
    readCh_drawOutputs s.resetRegs, readRgb_drawOutputs s.resetRegs⟩

end Sys2Proof.Proofs
end
